-- ==== Sys2Proof/Word.lean ====
section
/-!
DEFINITION. The word types of the machine (spec/00_scope.md R4, R7, R8).

Every value is unsigned (R8). Bit 0 is the least significant bit (R7), which is `BitVec`'s own numbering, so `v[hi:lo]` of
the spec is `v.extractLsb' lo (hi - lo + 1)` and `a ++ b` of the spec is `a ++ b`.
-/

namespace Sys2Proof

/-- A byte of memory, a general register, a timer or an 8-bit immediate (R4: 8 bits each). -/
abbrev Byte := BitVec 8

/-- An instruction word, the program counter, the index register or a stack entry (R4: 16 bits each). -/
abbrev Word := BitVec 16

/-- The 12-bit immediate `nnn` (30_encoding.md R71). -/
abbrev Addr12 := BitVec 12

/-- A 4-bit field of an instruction word: the count `n`, a key value, or bits the decoder ignores (R71, R79). -/
abbrev Nibble := BitVec 4

/-- A register number 0..15, read from a 4-bit field; all sixteen are legal (30_encoding.md R77). -/
abbrev Reg := BitVec 4

end Sys2Proof
end

