-- ==== Sys2Proof/Syntax.lean ====
section
/-!
DEFINITION. The 33 instructions (spec/30_encoding.md R78, spec/opcode_table.json), one constructor per row, in the table's order.

The names follow the decode function of R83. The four rows whose words hold bits the decoder does not examine (R79) carry
those bits as the table's own field `ignored`: no instruction's effect depends on them, and with them every word that is
an instruction is the encoding of exactly one term of this type.
-/

namespace Sys2Proof

/-- An instruction, its fields taken out of the word (R71). -/
inductive Instr where
  /-- `00E0` CLS; `ignored` is bits 11..8. -/
  | cls (ignored : Nibble)
  /-- `00EE` RET; `ignored` is bits 11..8. -/
  | ret (ignored : Nibble)
  /-- `1nnn` JP nnn. -/
  | jp (nnn : Addr12)
  /-- `2nnn` CALL nnn. -/
  | call (nnn : Addr12)
  /-- `3xnn` SE Vx, nn. -/
  | seImm (x : Reg) (nn : Byte)
  /-- `4xnn` SNE Vx, nn. -/
  | sneImm (x : Reg) (nn : Byte)
  /-- `5xy0` SE Vx, Vy; `ignored` is bits 3..0. -/
  | seReg (x y : Reg) (ignored : Nibble)
  /-- `6xnn` LD Vx, nn. -/
  | ldImm (x : Reg) (nn : Byte)
  /-- `7xnn` ADD Vx, nn. -/
  | addImm (x : Reg) (nn : Byte)
  /-- `8xy0` LD Vx, Vy. -/
  | ldReg (x y : Reg)
  /-- `8xy1` OR Vx, Vy. -/
  | orReg (x y : Reg)
  /-- `8xy2` AND Vx, Vy. -/
  | andReg (x y : Reg)
  /-- `8xy3` XOR Vx, Vy. -/
  | xorReg (x y : Reg)
  /-- `8xy4` ADD Vx, Vy. -/
  | addReg (x y : Reg)
  /-- `8xy5` SUB Vx, Vy. -/
  | sub (x y : Reg)
  /-- `8xy6` SHR Vx, Vy. -/
  | shr (x y : Reg)
  /-- `8xy7` SUBN Vx, Vy. -/
  | subn (x y : Reg)
  /-- `8xyE` SHL Vx, Vy. -/
  | shl (x y : Reg)
  /-- `9xy0` SNE Vx, Vy; `ignored` is bits 3..0. -/
  | sneReg (x y : Reg) (ignored : Nibble)
  /-- `Annn` LD I, nnn. -/
  | ldI (nnn : Addr12)
  /-- `Bnnn` JP V0, nnn. -/
  | jpV0 (nnn : Addr12)
  /-- `Cxnn` RND Vx, nn. -/
  | rnd (x : Reg) (nn : Byte)
  /-- `Dxyn` DRW Vx, Vy, n. -/
  | drw (x y : Reg) (n : Nibble)
  /-- `Fx1E` ADD I, Vx. -/
  | addI (x : Reg)
  /-- `Fx29` LD F, Vx. -/
  | ldFont (x : Reg)
  /-- `Fx55` LD [I], Vx. -/
  | store (x : Reg)
  /-- `Fx65` LD Vx, [I]. -/
  | load (x : Reg)
  /-- `Fx0A` LD Vx, K. -/
  | ldKey (x : Reg)
  /-- `Fx07` LD Vx, DT. -/
  | ldFromDt (x : Reg)
  /-- `Fx15` LD DT, Vx. -/
  | ldDt (x : Reg)
  /-- `Fx18` LD ST, Vx. -/
  | ldSt (x : Reg)
  /-- `ExA1` SKNP Vx. -/
  | sknp (x : Reg)
  /-- `Ex9E` SKP Vx. -/
  | skp (x : Reg)
deriving DecidableEq, Repr

end Sys2Proof
end

