-- ==== Sys2Proof/WellFormed.lean ====
section
/-!
DEFINITION. Well-formed instructions: those whose word is the canonical encoding (spec/30_encoding.md R79).

A field cannot be out of range, because its type is its width (R77: every register number and immediate is legal). What is
left to check is R79's distinction: "the printed patterns are the canonical encodings and the only ones an assembler emits;
the others are aliases". An alias is decoded and runs like its canonical instruction; it is only not well formed.
-/

namespace Sys2Proof

/-- The instruction's word is its canonical encoding: the bits the decoder ignores are 0 (R79). -/
def Instr.wellFormed : Instr → Bool
  | .cls ignored => ignored == 0
  | .ret ignored => ignored == 0
  | .seReg _ _ ignored => ignored == 0
  | .sneReg _ _ ignored => ignored == 0
  | .jp _ => true
  | .call _ => true
  | .seImm _ _ => true
  | .sneImm _ _ => true
  | .ldImm _ _ => true
  | .addImm _ _ => true
  | .ldReg _ _ => true
  | .orReg _ _ => true
  | .andReg _ _ => true
  | .xorReg _ _ => true
  | .addReg _ _ => true
  | .sub _ _ => true
  | .shr _ _ => true
  | .subn _ _ => true
  | .shl _ _ => true
  | .ldI _ => true
  | .jpV0 _ => true
  | .rnd _ _ => true
  | .drw _ _ _ => true
  | .addI _ => true
  | .ldFont _ => true
  | .store _ => true
  | .load _ => true
  | .ldKey _ => true
  | .ldFromDt _ => true
  | .ldDt _ => true
  | .ldSt _ => true
  | .sknp _ => true
  | .skp _ => true

/-- The canonical instruction that an alias runs as (R79); a canonical instruction is its own. -/
def Instr.canonical : Instr → Instr
  | .cls _ => .cls 0
  | .ret _ => .ret 0
  | .seReg x y _ => .seReg x y 0
  | .sneReg x y _ => .sneReg x y 0
  | .jp nnn => .jp nnn
  | .call nnn => .call nnn
  | .seImm x nn => .seImm x nn
  | .sneImm x nn => .sneImm x nn
  | .ldImm x nn => .ldImm x nn
  | .addImm x nn => .addImm x nn
  | .ldReg x y => .ldReg x y
  | .orReg x y => .orReg x y
  | .andReg x y => .andReg x y
  | .xorReg x y => .xorReg x y
  | .addReg x y => .addReg x y
  | .sub x y => .sub x y
  | .shr x y => .shr x y
  | .subn x y => .subn x y
  | .shl x y => .shl x y
  | .ldI nnn => .ldI nnn
  | .jpV0 nnn => .jpV0 nnn
  | .rnd x nn => .rnd x nn
  | .drw x y n => .drw x y n
  | .addI x => .addI x
  | .ldFont x => .ldFont x
  | .store x => .store x
  | .load x => .load x
  | .ldKey x => .ldKey x
  | .ldFromDt x => .ldFromDt x
  | .ldDt x => .ldDt x
  | .ldSt x => .ldSt x
  | .sknp x => .sknp x
  | .skp x => .skp x

end Sys2Proof
end

