-- ==== Sys2Proof/Decode.lean ====
section
/-!
DEFINITION. Decoding and encoding (spec/30_encoding.md R70 to R83).

`decode` is R83, total on all 65536 words and rejecting an unknown word by name. `decodeBytes` reads a word from bytes in the
order memory holds them, the high byte first (R70). `encode` is written from the same table (R78).
-/

namespace Sys2Proof

/-- Why bytes are no instruction. -/
inductive DecodeError where
  /-- The word is none of the 33 instructions (R76); the step records it (60_exceptions.md R171). -/
  | unknownOpcode (w : Word)
  /-- Fewer than two bytes were given: no word (R70). A fetch never meets this, it reads two bytes or faults. -/
  | truncated
deriving DecidableEq, Repr

/-- `op = w[15:12]` (R71). -/
def Word.op (w : Word) : Nibble := w.extractLsb' 12 4

/-- `x = w[11:8]` (R71). -/
def Word.x (w : Word) : Reg := w.extractLsb' 8 4

/-- `y = w[7:4]` (R71). -/
def Word.y (w : Word) : Reg := w.extractLsb' 4 4

/-- `n = w[3:0]` (R71). -/
def Word.n (w : Word) : Nibble := w.extractLsb' 0 4

/-- `nn = w[7:0]` (R71). -/
def Word.nn (w : Word) : Byte := w.extractLsb' 0 8

/-- `nnn = w[11:0]` (R71). -/
def Word.nnn (w : Word) : Addr12 := w.extractLsb' 0 12

/-- The word at two neighbouring bytes, the lower-addressed one first: big-endian (R70, 20_memory.md R53). -/
def wordOfBytes (hi lo : Byte) : Word := hi ++ lo

/-- The high byte of a word, which stands at the lower address (R70). -/
def Word.hiByte (w : Word) : Byte := w.extractLsb' 8 8

/-- The low byte of a word (R70). -/
def Word.loByte (w : Word) : Byte := w.extractLsb' 0 8

/-- Family 0: second look at `nn` (R75). -/
def decodeFamily0 (w : Word) : Except DecodeError Instr :=
  if Word.nn w = 0xE0 then .ok (.cls (Word.x w))
  else if Word.nn w = 0xEE then .ok (.ret (Word.x w))
  else .error (.unknownOpcode w)

/-- Family 8: second look at `n` (R75). -/
def decodeFamily8 (w : Word) : Except DecodeError Instr :=
  if Word.n w = 0x0 then .ok (.ldReg (Word.x w) (Word.y w))
  else if Word.n w = 0x1 then .ok (.orReg (Word.x w) (Word.y w))
  else if Word.n w = 0x2 then .ok (.andReg (Word.x w) (Word.y w))
  else if Word.n w = 0x3 then .ok (.xorReg (Word.x w) (Word.y w))
  else if Word.n w = 0x4 then .ok (.addReg (Word.x w) (Word.y w))
  else if Word.n w = 0x5 then .ok (.sub (Word.x w) (Word.y w))
  else if Word.n w = 0x6 then .ok (.shr (Word.x w) (Word.y w))
  else if Word.n w = 0x7 then .ok (.subn (Word.x w) (Word.y w))
  else if Word.n w = 0xE then .ok (.shl (Word.x w) (Word.y w))
  else .error (.unknownOpcode w)

/-- Family E: second look at `nn` (R75). -/
def decodeFamilyE (w : Word) : Except DecodeError Instr :=
  if Word.nn w = 0x9E then .ok (.skp (Word.x w))
  else if Word.nn w = 0xA1 then .ok (.sknp (Word.x w))
  else .error (.unknownOpcode w)

/-- Family F: second look at `nn` (R75). -/
def decodeFamilyF (w : Word) : Except DecodeError Instr :=
  if Word.nn w = 0x07 then .ok (.ldFromDt (Word.x w))
  else if Word.nn w = 0x0A then .ok (.ldKey (Word.x w))
  else if Word.nn w = 0x15 then .ok (.ldDt (Word.x w))
  else if Word.nn w = 0x18 then .ok (.ldSt (Word.x w))
  else if Word.nn w = 0x1E then .ok (.addI (Word.x w))
  else if Word.nn w = 0x29 then .ok (.ldFont (Word.x w))
  else if Word.nn w = 0x55 then .ok (.store (Word.x w))
  else if Word.nn w = 0x65 then .ok (.load (Word.x w))
  else .error (.unknownOpcode w)

/-- R83: primary dispatch on `op` alone (R74), then the family's second look. -/
def decode (w : Word) : Except DecodeError Instr :=
  if Word.op w = 0x0 then decodeFamily0 w
  else if Word.op w = 0x1 then .ok (.jp (Word.nnn w))
  else if Word.op w = 0x2 then .ok (.call (Word.nnn w))
  else if Word.op w = 0x3 then .ok (.seImm (Word.x w) (Word.nn w))
  else if Word.op w = 0x4 then .ok (.sneImm (Word.x w) (Word.nn w))
  else if Word.op w = 0x5 then .ok (.seReg (Word.x w) (Word.y w) (Word.n w))
  else if Word.op w = 0x6 then .ok (.ldImm (Word.x w) (Word.nn w))
  else if Word.op w = 0x7 then .ok (.addImm (Word.x w) (Word.nn w))
  else if Word.op w = 0x8 then decodeFamily8 w
  else if Word.op w = 0x9 then .ok (.sneReg (Word.x w) (Word.y w) (Word.n w))
  else if Word.op w = 0xA then .ok (.ldI (Word.nnn w))
  else if Word.op w = 0xB then .ok (.jpV0 (Word.nnn w))
  else if Word.op w = 0xC then .ok (.rnd (Word.x w) (Word.nn w))
  else if Word.op w = 0xD then .ok (.drw (Word.x w) (Word.y w) (Word.n w))
  else if Word.op w = 0xE then decodeFamilyE w
  else decodeFamilyF w

/-- Decoding from bytes in memory order: the instruction and the bytes after it. -/
def decodeBytes : List Byte → Except DecodeError (Instr × List Byte)
  | hi :: lo :: rest =>
    match decode (wordOfBytes hi lo) with
    | .ok i => .ok (i, rest)
    | .error e => .error e
  | _ => .error .truncated

/-- Format A (R72): `op`, `nnn`. -/
def formatA (op : Nibble) (nnn : Addr12) : Word := op ++ nnn

/-- Formats Z, XI and XF (R72): `op`, the field in bits 11..8, `nn`. -/
def formatX (op : Nibble) (x : Reg) (nn : Byte) : Word := op ++ x ++ nn

/-- Formats XY and XYN (R72): `op`, `x`, `y`, `n`. -/
def formatXY (op : Nibble) (x y : Reg) (n : Nibble) : Word := op ++ x ++ y ++ n

/-- The word of an instruction, from R78's patterns and R72's formats. -/
def encode : Instr → Word
  | .cls ignored => formatX 0x0 ignored 0xE0
  | .ret ignored => formatX 0x0 ignored 0xEE
  | .jp nnn => formatA 0x1 nnn
  | .call nnn => formatA 0x2 nnn
  | .seImm x nn => formatX 0x3 x nn
  | .sneImm x nn => formatX 0x4 x nn
  | .seReg x y ignored => formatXY 0x5 x y ignored
  | .ldImm x nn => formatX 0x6 x nn
  | .addImm x nn => formatX 0x7 x nn
  | .ldReg x y => formatXY 0x8 x y 0x0
  | .orReg x y => formatXY 0x8 x y 0x1
  | .andReg x y => formatXY 0x8 x y 0x2
  | .xorReg x y => formatXY 0x8 x y 0x3
  | .addReg x y => formatXY 0x8 x y 0x4
  | .sub x y => formatXY 0x8 x y 0x5
  | .shr x y => formatXY 0x8 x y 0x6
  | .subn x y => formatXY 0x8 x y 0x7
  | .shl x y => formatXY 0x8 x y 0xE
  | .sneReg x y ignored => formatXY 0x9 x y ignored
  | .ldI nnn => formatA 0xA nnn
  | .jpV0 nnn => formatA 0xB nnn
  | .rnd x nn => formatX 0xC x nn
  | .drw x y n => formatXY 0xD x y n
  | .addI x => formatX 0xF x 0x1E
  | .ldFont x => formatX 0xF x 0x29
  | .store x => formatX 0xF x 0x55
  | .load x => formatX 0xF x 0x65
  | .ldKey x => formatX 0xF x 0x0A
  | .ldFromDt x => formatX 0xF x 0x07
  | .ldDt x => formatX 0xF x 0x15
  | .ldSt x => formatX 0xF x 0x18
  | .sknp x => formatX 0xE x 0xA1
  | .skp x => formatX 0xE x 0x9E

/-- The bytes of an instruction in memory order (R70). -/
def encodeBytes (i : Instr) : List Byte := [Word.hiByte (encode i), Word.loByte (encode i)]

/-- One row of the opcode map (R78): a word `w` is the row's instruction iff `w AND mask = pattern`. -/
structure OpcodeRow where
  /-- The bits the decoder looks at. -/
  mask : Word
  /-- What those bits must be (the spec's column `match`). -/
  pattern : Word
deriving DecidableEq, Repr

/-- The row's test on a word (R78). -/
def OpcodeRow.accepts (row : OpcodeRow) (w : Word) : Bool := w &&& row.mask == row.pattern

/-- The row of an instruction in R78's map. -/
def Instr.row : Instr → OpcodeRow
  | .cls _ => ⟨0xF0FF, 0x00E0⟩
  | .ret _ => ⟨0xF0FF, 0x00EE⟩
  | .jp _ => ⟨0xF000, 0x1000⟩
  | .call _ => ⟨0xF000, 0x2000⟩
  | .seImm _ _ => ⟨0xF000, 0x3000⟩
  | .sneImm _ _ => ⟨0xF000, 0x4000⟩
  | .seReg _ _ _ => ⟨0xF000, 0x5000⟩
  | .ldImm _ _ => ⟨0xF000, 0x6000⟩
  | .addImm _ _ => ⟨0xF000, 0x7000⟩
  | .ldReg _ _ => ⟨0xF00F, 0x8000⟩
  | .orReg _ _ => ⟨0xF00F, 0x8001⟩
  | .andReg _ _ => ⟨0xF00F, 0x8002⟩
  | .xorReg _ _ => ⟨0xF00F, 0x8003⟩
  | .addReg _ _ => ⟨0xF00F, 0x8004⟩
  | .sub _ _ => ⟨0xF00F, 0x8005⟩
  | .shr _ _ => ⟨0xF00F, 0x8006⟩
  | .subn _ _ => ⟨0xF00F, 0x8007⟩
  | .shl _ _ => ⟨0xF00F, 0x800E⟩
  | .sneReg _ _ _ => ⟨0xF000, 0x9000⟩
  | .ldI _ => ⟨0xF000, 0xA000⟩
  | .jpV0 _ => ⟨0xF000, 0xB000⟩
  | .rnd _ _ => ⟨0xF000, 0xC000⟩
  | .drw _ _ _ => ⟨0xF000, 0xD000⟩
  | .addI _ => ⟨0xF0FF, 0xF01E⟩
  | .ldFont _ => ⟨0xF0FF, 0xF029⟩
  | .store _ => ⟨0xF0FF, 0xF055⟩
  | .load _ => ⟨0xF0FF, 0xF065⟩
  | .ldKey _ => ⟨0xF0FF, 0xF00A⟩
  | .ldFromDt _ => ⟨0xF0FF, 0xF007⟩
  | .ldDt _ => ⟨0xF0FF, 0xF015⟩
  | .ldSt _ => ⟨0xF0FF, 0xF018⟩
  | .sknp _ => ⟨0xF0FF, 0xE0A1⟩
  | .skp _ => ⟨0xF0FF, 0xE09E⟩

/-- The whole opcode map (R78), in the table's order. -/
def opcodeMap : List OpcodeRow :=
  [⟨0xF0FF, 0x00E0⟩, ⟨0xF0FF, 0x00EE⟩, ⟨0xF000, 0x1000⟩, ⟨0xF000, 0x2000⟩, ⟨0xF000, 0x3000⟩, ⟨0xF000, 0x4000⟩,
   ⟨0xF000, 0x5000⟩, ⟨0xF000, 0x6000⟩, ⟨0xF000, 0x7000⟩, ⟨0xF00F, 0x8000⟩, ⟨0xF00F, 0x8001⟩] ++
  [⟨0xF00F, 0x8002⟩, ⟨0xF00F, 0x8003⟩, ⟨0xF00F, 0x8004⟩, ⟨0xF00F, 0x8005⟩, ⟨0xF00F, 0x8006⟩, ⟨0xF00F, 0x8007⟩,
   ⟨0xF00F, 0x800E⟩, ⟨0xF000, 0x9000⟩, ⟨0xF000, 0xA000⟩, ⟨0xF000, 0xB000⟩, ⟨0xF000, 0xC000⟩] ++
  [⟨0xF000, 0xD000⟩, ⟨0xF0FF, 0xF01E⟩, ⟨0xF0FF, 0xF029⟩, ⟨0xF0FF, 0xF055⟩, ⟨0xF0FF, 0xF065⟩, ⟨0xF0FF, 0xF00A⟩,
   ⟨0xF0FF, 0xF007⟩, ⟨0xF0FF, 0xF015⟩, ⟨0xF0FF, 0xF018⟩, ⟨0xF0FF, 0xE0A1⟩, ⟨0xF0FF, 0xE09E⟩]

/-- The word that the host's `nbits` bits `w` stand for: bit 0 is the word's least significant bit, and every bit from
`nbits` up is 0 (an instruction of this hardware is one word of 16 bits, R70). -/
def tableWord (nbits w : Nat) : Word := BitVec.ofNat 16 (w % 2 ^ nbits)

/-- The instruction the decoder reads from the word's two bytes laid out as memory holds them, the high byte first. -/
def decodeTableWord (nbits w : Nat) : Option Instr :=
  match decodeBytes [Word.hiByte (tableWord nbits w), Word.loByte (tableWord nbits w)] with
  | .ok (i, _) => some i
  | .error _ => none

end Sys2Proof
end

