-- ==== Sys2Proof/Config.lean ====
section
/-!
DEFINITION. The parameters of the hardware (spec/00_scope.md R4) and the free values.

What the source fixes is a number here. What it leaves open is an opaque constant: it has no body, so nothing can be proved
of its value, and a theorem about the machine holds for every value it could have.
-/

namespace Sys2Proof

/-- `MEM_SIZE`: addresses 0..4095 (R4, 20_memory.md R50). -/
@[simp] def Config.memSize : Nat := 4096

/-- `PROG_BASE`: where the program is loaded and the reset value of `pc` (R4, 10_state.md R24). -/
@[simp] def Config.progBase : Nat := 0x200

/-- `STACK_CAP`: return addresses the call stack holds (R4, 10_state.md R30). -/
@[simp] def Config.stackCap : Nat := 16

/-- `DISP_W`: columns of the display (R4, 10_state.md R31). -/
@[simp] def Config.dispW : Nat := 64

/-- `DISP_H`: rows of the display (R4, 10_state.md R31). -/
@[simp] def Config.dispH : Nat := 32

/-- `FONT_BASE`, OPEN in R4 with `FONT_BASE + 80 <= 0x200`: the bound is the type (0..432). Safe (log 4). -/
opaque Config.fontBase : Fin 433

/-- `FONT_DATA`, OPEN in R4: the 80 font bytes, glyph `g` at index `5 * g` (10_state.md R35). Safe (log 5). -/
opaque Config.fontData : Vector Byte 80

/-- `FX1E_SETS_VF`, which R4 gives the value `true` (decision D10). Unsafe if the hardware has it off (log 6). -/
def Config.fx1eSetsVf : Bool := true

/-- What reaches the core from outside for one step (R5, R6; 60_exceptions.md R184, R187). The MODEL's own record: the
spec calls `key` and `rnd` inputs of a step, not state. -/
structure Inputs where
  /-- The key sample of the step: none, or a key value 0..15 (10_state.md R33). -/
  key : Option Nibble
  /-- The random byte from which a Cxnn executed in the step draws (41_alu.md R131). -/
  rnd : Byte
  /-- How many timer ticks happen after the step before and before this one (R184: any number). -/
  ticks : Nat
  /-- Whether the renderer reads the display, and so clears `dirty`, before the step (R187). -/
  displayRead : Bool
deriving DecidableEq, Repr, Inhabited

/-- The free value: the inputs of step number `n` after reset. DESIGN CHOICE in form, safe: every sequence of inputs is
admitted, since nothing constrains this function (log 1). -/
opaque Config.inputs (n : Nat) : Inputs

end Sys2Proof
end

