-- ==== Sys2Proof/Machine/State.lean ====
section
/-!
DEFINITION. The machine's state as plain data, and the state after reset (spec/10_state.md R20 to R41).

The fields up to `status` are R41's list, in its order. The last two, `inputs` and `moment`, are the model's own: they bring
the inputs of a step (R33, R6) into a step that is a function of the state alone (log 1).
-/

namespace Sys2Proof.Machine

/-- The four fatal conditions, with what each records (60_exceptions.md R170, R188). -/
inductive HaltReason where
  /-- Raised by decode: the word is none of the 33 instructions (R171). -/
  | unknownOpcode (word : Word)
  /-- Raised by fetch, Fx55, Fx65 and Dxyn: the first address above 4095 of the access (R172). -/
  | outOfBounds (addr : Nat)
  /-- Raised by 00EE with an empty call stack (R173). -/
  | stackUnderflow
  /-- Raised by 2nnn with a full call stack (R174). -/
  | stackOverflow
deriving DecidableEq, Repr

/-- The machine status (R34). -/
inductive Status where
  /-- Fetching and executing. -/
  | running
  /-- Waiting for a key sample, which the pending Fx0A writes to register `x`. -/
  | waitingForKey (x : Reg)
  /-- Terminal: a fatal condition was met. -/
  | halted (reason : HaltReason)
deriving DecidableEq, Repr

/-- The registers V0..VF (R20). -/
abbrev RegFile := Vector Byte 16

/-- Memory: the bytes that differ from their reset value, by rising address (canonical form: `Memory.wf`, Ops.lean).
The address space is 0..4095 (20_memory.md R50). -/
abbrev Memory := List Host.Cell

/-- The display buffer: row `y`, then column `x` (R31). -/
abbrev Display := Vector (Vector Bool 64) 32

/-- Reasons to stop with a fault: none. Every exceptional condition of this hardware is a fatal condition whose entry the
spec describes (60_exceptions.md R176), so the model takes it as a next state with status `halted`. -/
inductive Fault where
deriving DecidableEq, Repr

/-- Reasons to give no meaning. -/
inductive Refusal where
  /-- Raised by an arm of `exec` whose instruction has no meaning yet; safe. No arm of this model raises it. -/
  | notModelled (mnemonic : String)
deriving DecidableEq, Repr

/-- The whole state of the machine (R41). -/
structure State where
  /-- V0..VF, 8 bits each (R20); register 15 is also the flag (R21). -/
  v : RegFile
  /-- The program counter (R24). -/
  pc : Word
  /-- The index register I (R28). -/
  i : Word
  /-- The delay timer DT (R29). -/
  dt : Byte
  /-- The sound timer ST (R29). -/
  st : Byte
  /-- The call stack, the newest entry first (R30; log 27). -/
  stack : List Word
  /-- Memory (R38, 20_memory.md R50). -/
  mem : Memory
  /-- The display buffer Disp (R31). -/
  disp : Display
  /-- The frame-dirty flag (R32). -/
  dirty : Bool
  /-- The machine status (R34). -/
  status : Status
  /-- The MODEL's own: the inputs of the step about to be taken (R33, R6; log 1). -/
  inputs : Inputs
  /-- The MODEL's own: which element of the input sequence `inputs` is (log 1). -/
  moment : Nat
deriving DecidableEq, Repr

/-- The machine right after reset, before any program load (R40, 70_reset_and_hazards.md R190). Memory lists nothing: it
holds its reset contents, the font copy and zeros. `pc`, `disp`, the font copy and the empty stack are the source's; the
zeros of `v`, `i`, `dt`, `st`, `dirty` and of the other memory, and `running`, are R40's decisions (log 2, 3). -/
def State.reset : State where
  v := Vector.replicate 16 0
  pc := 0x200
  i := 0
  dt := 0
  st := 0
  stack := []
  mem := []
  disp := Vector.replicate 32 (Vector.replicate 64 false)
  dirty := false
  status := .running
  inputs := Config.inputs 0
  moment := 0

end Sys2Proof.Machine
end

