-- ==== Sys2Proof/Machine/Ops.lean ====
section
/-!
DEFINITION. The named operations over the state: memory, registers, the program counter, the call stack, halt entry, fetch,
the block transfers, the display, the timers, and the passing from one step to the next.

Names follow the primitives of spec/00_scope.md R9.
-/

namespace Sys2Proof.Machine

/-! ### Memory (20_memory.md) -/

/-- What an unlisted address reads as: its reset contents (10_state.md R35, R40), the font byte in the font region and 0
elsewhere. The first test is no extra rule: the font region lies below `PROG_BASE` (R4). -/
def Memory.resetByte (a : Nat) : Byte :=
  if Config.progBase ≤ a then 0
  else if h : Config.fontBase.val ≤ a ∧ a < Config.fontBase.val + 80 then
    Config.fontData[a - Config.fontBase.val]
  else 0

/-- The byte at an address, whether or not the address exists. -/
def Memory.read : Memory → Nat → Byte
  | [], a => Memory.resetByte a
  | (b, w) :: m, a => if a = b then w else Memory.read m a

/-- Memory without any entry for an address. -/
def Memory.erase (m : Memory) (a : Nat) : Memory := m.filter fun c => c.1 ≠ a

/-- A new entry in its place by rising address. -/
def Memory.insert : Memory → Nat → Byte → Memory
  | [], a, b => [(a, b)]
  | c :: m, a, b => if a < c.1 then (a, b) :: c :: m else c :: Memory.insert m a b

/-- One byte replaced, the canonical form kept: writing the reset value removes the entry. -/
def Memory.write (m : Memory) (a : Nat) (b : Byte) : Memory :=
  if b = Memory.resetByte a then Memory.erase m a else Memory.insert (Memory.erase m a) a b

/-- The canonical form: addresses strictly rising, all of them existing, no entry equal to its reset value. -/
abbrev Memory.wf (m : Memory) : Prop :=
  m.Pairwise (fun c d => c.1 < d.1) ∧ ∀ c ∈ m, c.1 < Config.memSize ∧ c.2 ≠ Memory.resetByte c.1

/-- `MemRead(addr, 1)`: `none` is `raise OutOfBounds(addr)` (R51). -/
def Memory.readByte (m : Memory) (a : Nat) : Option Byte :=
  if a < Config.memSize then some (Memory.read m a) else none

/-- `MemWrite(addr, 1, b)`: `none` is `raise OutOfBounds(addr)`, memory unchanged (R51). There is no protection (R55). -/
def Memory.writeByte (m : Memory) (a : Nat) (b : Byte) : Option Memory :=
  if a < Config.memSize then some (Memory.write m a b) else none

/-- `MemRead(addr, 2)`: the big-endian word, or the first address of the pair that does not exist (R52, R53; log 19). Any
`addr`, odd or even (R54; log 8). -/
def Memory.readWord (m : Memory) (a : Nat) : Except Nat Word :=
  if a + 1 < Config.memSize then .ok (wordOfBytes (Memory.read m a) (Memory.read m (a + 1)))
  else .error (max a Config.memSize)

/-- Bytes written at rising addresses from `a` on. -/
def Memory.writeBytes : Memory → Nat → List Byte → Memory
  | m, _, [] => m
  | m, a, b :: bs => Memory.writeBytes (Memory.write m a b) (a + 1) bs

/-! ### Registers (10_state.md R20) -/

/-- Read register `r` of a register file. -/
def RegFile.get (v : RegFile) (r : Reg) : Byte := v[r.toNat]'r.isLt

/-- Write register `r` of a register file. -/
def RegFile.set (v : RegFile) (r : Reg) (b : Byte) : RegFile := Vector.set v r.toNat b r.isLt

/-- `V[r]` (R9). -/
def State.getV (s : State) (r : Reg) : Byte := RegFile.get s.v r

/-- `V[r] <- b` (R9). -/
def State.setV (s : State) (r : Reg) (b : Byte) : State := { s with v := RegFile.set s.v r b }

/-- The number of VF, the flag register (R21). -/
abbrev regF : Reg := 0xF

/-- The two writes of a flag-writing instruction: the flag to VF first, the result to `V[x]` second (R22). Both values are
the caller's, computed from operands read before (R23; log 7). -/
def State.setFlagAndResult (s : State) (flag : Byte) (x : Reg) (result : Byte) : State :=
  State.setV (State.setV s regF flag) x result

/-- `I <- a`. -/
def State.setI (s : State) (a : Word) : State := { s with i := a }

/-- `DT <- b`. -/
def State.setDt (s : State) (b : Byte) : State := { s with dt := b }

/-- `ST <- b`. -/
def State.setSt (s : State) (b : Byte) : State := { s with st := b }

/-! ### Program counter and call stack (10_state.md R24 to R30) -/

/-- `pc <- target`. No alignment or range check (40_control_flow.md R108). -/
def State.setPc (s : State) (target : Word) : State := { s with pc := target }

/-- `pc <- pc + 2`: the advance after a fetch (30_encoding.md R73) and a skip (40_control_flow.md R108). At 16 bits; in a step
it never wraps (R27; log 26). -/
def State.advancePc (s : State) : State := { s with pc := s.pc + 2 }

/-- `skip`, if the condition holds (R108). -/
def State.skipIf (s : State) (c : Bool) : State := { s with pc := if c then s.pc + 2 else s.pc }

/-- `push(a)`: `none` is `raise StackOverflow` (R30). -/
def State.push (s : State) (a : Word) : Option State :=
  if s.stack.length < Config.stackCap then some { s with stack := a :: s.stack } else none

/-- `pop()`: `none` is `raise StackUnderflow` (R30). -/
def State.pop (s : State) : Option (Word × State) :=
  match s.stack with
  | [] => none
  | a :: rest => some (a, { s with stack := rest })

/-! ### Taking an exception (60_exceptions.md R170, R176)

There is one exceptional entry and no return from it: nothing is saved, control goes nowhere, and only reset leaves the
status (R178). -/

/-- `raise reason`: halt entry. What the instruction wrote before stays written (R176). -/
def State.raise (s : State) (reason : HaltReason) : State := { s with status := .halted reason }

/-- The same as the outcome of an instruction: a next state. -/
def halt (s : State) (reason : HaltReason) : Host.Outcome State Fault Refusal := .next (State.raise s reason)

/-! ### Block transfers (42_index_memory.md R143, R144) -/

/-- `for j = i, i+1, ... (k of them): MemWrite(base + j, 1, V[j])`, stopping at the first address that does not exist: the
memory so far and that address (R143; log 13). -/
def Memory.storeRegs (v : RegFile) (base : Nat) : (i k : Nat) → Memory → Memory × Option Nat
  | _, 0, m => (m, none)
  | i, k + 1, m =>
    match Memory.writeByte m (base + i) (RegFile.get v (BitVec.ofNat 4 i)) with
    | none => (m, some (base + i))
    | some m' => Memory.storeRegs v base (i + 1) k m'

/-- `for j = i, i+1, ... (k of them): V[j] <- MemRead(base + j, 1)`, stopping at the first address that does not exist: the
registers so far and that address (R144; log 13). -/
def Memory.loadRegs (m : Memory) (base : Nat) : (i k : Nat) → RegFile → RegFile × Option Nat
  | _, 0, v => (v, none)
  | i, k + 1, v =>
    match Memory.readByte m (base + i) with
    | none => (v, some (base + i))
    | some b => Memory.loadRegs m base (i + 1) k (RegFile.set v (BitVec.ofNat 4 i) b)

/-! ### Display (10_state.md R31, 43_display.md R151 to R153) -/

/-- The display with every pixel 0. -/
def Display.blank : Display := Vector.replicate 32 (Vector.replicate 64 false)

/-- The pixel in column `px` of row `py`; off the display there is none and it reads 0. -/
def Display.pixel (d : Display) (px py : Nat) : Bool :=
  if h : px < 64 ∧ py < 32 then d[py][px] else false

/-- `Disp[py][px] <- Disp[py][px] XOR 1`; nothing off the display. -/
def Display.toggle (d : Display) (px py : Nat) : Display :=
  if h : px < 64 ∧ py < 32 then d.set py (d[py].set px (!d[py][px])) else d

/-- What a draw works on: the display and whether a pixel has gone from 1 to 0. -/
structure Canvas where
  /-- The display so far. -/
  disp : Display
  /-- `hit` of R151. -/
  hit : Bool
deriving DecidableEq, Repr

/-- One set bit of a sprite at column `px`, row `py`: dropped off the display, else XORed, noting a collision (R151, R153). -/
def Canvas.plot (px py : Nat) (c : Canvas) : Canvas :=
  if px < Config.dispW ∧ py < Config.dispH then
    { disp := Display.toggle c.disp px py, hit := c.hit || Display.pixel c.disp px py }
  else c

/-- The bits `c = i, i+1, ...` (`k` of them) of a sprite row: bit `7 - c` goes to column `vx + c` (R152; log 10). -/
def Canvas.drawBits (row : Byte) (vx py : Nat) : (i k : Nat) → Canvas → Canvas
  | _, 0, d => d
  | i, k + 1, d =>
    Canvas.drawBits row vx py (i + 1) k (if row.getLsbD (7 - i) then Canvas.plot (vx + i) py d else d)

/-- Sprite rows from display row `py` on, in the direction of increasing `y` (R151, R152). -/
def Canvas.drawRows (vx : Nat) : (py : Nat) → List Byte → Canvas → Canvas
  | _, [], d => d
  | py, row :: rows, d => Canvas.drawRows vx (py + 1) rows (Canvas.drawBits row vx py 0 8 d)

/-! ### Timers (60_exceptions.md R182 to R185) -/

/-- One tick of one timer: decremented, floored at 0 (R182). -/
def Timer.dec (t : Byte) : Byte := if t = 0 then t else t - 1

/-- `n` ticks of one timer. A timer at 0 stays there, whatever `n`. -/
def Timer.after (n : Nat) (t : Byte) : Byte := if t = 0 then t else BitVec.ofNat 8 (t.toNat - n)

/-- `tick()`: both timers, independently; nothing else (R182). -/
def State.tick (s : State) : State := { s with dt := Timer.dec s.dt, st := Timer.dec s.st }

/-- `n` ticks one after the other. -/
def State.advanceTimers (s : State) (n : Nat) : State :=
  { s with dt := Timer.after n s.dt, st := Timer.after n s.st }

/-- The renderer's read of the display, if it happens, clears `dirty` (10_state.md R32, 60_exceptions.md R187). -/
def State.rendererRead (s : State) (reads : Bool) : State := { s with dirty := s.dirty && !reads }

/-! ### From step to step -/

/-- What happens outside the core after the step before and before this one: any number of ticks, and the renderer may read
the display (60_exceptions.md R184, R187; log 17, 24). -/
def State.betweenSteps (s : State) : State :=
  State.rendererRead (State.advanceTimers s s.inputs.ticks) s.inputs.displayRead

/-- The inputs of the next step: the next element of the free input sequence (log 1). -/
def State.nextInputs (s : State) : State :=
  { s with inputs := Config.inputs (s.moment + 1), moment := s.moment + 1 }

/-- The step of a waiting machine (44_timers_keys.md R161): no key, no change; a key is committed to the target register
and the machine runs again, and that is the whole step (log 16). -/
def State.sampleKey (s : State) (x : Reg) : State :=
  match s.inputs.key with
  | none => s
  | some k => { State.setV s x (k.setWidth 8) with status := .running }

/-- The instruction word at `pc`, or the address to report (20_memory.md R52, 60_exceptions.md R172 a). -/
def State.fetch (s : State) : Except Nat Word := Memory.readWord s.mem s.pc.toNat

/-- The host's placing of an instruction word where the next step fetches: the two bytes at `pc`, and the status in which
a step fetches (log 25). -/
def State.placeWord (s : State) (w : Word) : State :=
  { s with mem := Memory.writeBytes s.mem s.pc.toNat [Word.hiByte w, Word.loByte w], status := .running }

end Sys2Proof.Machine
end

