-- ==== Sys2Proof/Machine/Flags.lean ====
section
/-!
DEFINITION. Every flag computation (spec/10_state.md R21): VF is the only flag, its value is 0 or 1.
-/

namespace Sys2Proof.Machine

/-- A flag value: 1 or 0 (R21). -/
def Flag.ofBool (c : Bool) : Byte := if c then 1 else 0

/-- 8xy4: the carry out of 8 bits, on the exact sum (41_alu.md R126). -/
def Flag.carry (a b : Byte) : Byte := Flag.ofBool (256 ≤ a.toNat + b.toNat)

/-- 8xy5, 8xy7: minuend strictly greater than subtrahend; 0 when equal (41_alu.md R127, R129, R132). -/
def Flag.greater (a b : Byte) : Byte := Flag.ofBool (b.toNat < a.toNat)

/-- 8xy6: the bit shifted out to the right (41_alu.md R128). -/
def Flag.lowBit (a : Byte) : Byte := Flag.ofBool (a.getLsbD 0)

/-- 8xyE: the bit shifted out to the left (41_alu.md R130). -/
def Flag.highBit (a : Byte) : Byte := Flag.ofBool (a.getLsbD 7)

/-- Fx1E: the unreduced sum exceeds 0xFFF (42_index_memory.md R141; log 6). -/
def Flag.indexOverflow (sum : Nat) : Byte := Flag.ofBool (0xFFF < sum)

/-- Dxyn: a pixel went from 1 to 0 (43_display.md R151; log 11). -/
def Flag.collision (hit : Bool) : Byte := Flag.ofBool hit

end Sys2Proof.Machine
end

