-- ==== Sys2Proof/Machine/Operands.lean ====
section
/-!
DEFINITION. The operand forms (spec/30_encoding.md R77, 42_index_memory.md R145): immediates, the one addressing mode, and the
implied operands key, random byte and font address.
-/

namespace Sys2Proof.Machine

/-- `zext_16(nnn)` (30_encoding.md R77). -/
def Operand.addr12 (nnn : Addr12) : Word := nnn.setWidth 16

/-- `zext_16` of a byte: V[0] in Bnnn (40_control_flow.md R107). -/
def Operand.byte16 (b : Byte) : Word := b.setWidth 16

/-- The base address `I` as an unbounded natural, to which offsets are added without reduction (20_memory.md R56). -/
def State.base (s : State) : Nat := s.i.toNat

/-- How many registers Fx55 and Fx65 move: `0..x` inclusive (42_index_memory.md R143, R144). -/
def Operand.blockLength (x : Reg) : Nat := x.toNat + 1

/-- `FONT_BASE + 5 * (v AND 0x0F)` (42_index_memory.md R142). It fits in 16 bits, being below 0x200. -/
def Operand.fontAddr (v : Byte) : Word := BitVec.ofNat 16 (Config.fontBase.val + 5 * (v &&& 0x0F).toNat)

/-- `pressed(v)` on this step's key sample: all 8 bits compared (44_timers_keys.md R166; log 15). -/
def State.pressed (s : State) (v : Byte) : Bool :=
  match s.inputs.key with
  | none => false
  | some k => k.setWidth 8 == v

/-- The random byte drawn for a Cxnn: some value in `0..nn`, and every one of them for some random input (41_alu.md R131;
log 14). An input in that range is the draw itself. -/
def Operand.draw (nn rnd : Byte) : Byte := BitVec.ofNat 8 (rnd.toNat % (nn.toNat + 1))

/-- The `n` sprite bytes `mem[I .. I+n-1]`, all read before any pixel is written; `none` if one of them does not exist
(43_display.md R152, R154; log 12). -/
def State.spriteBytes (s : State) (n : Nibble) : Option (List Byte) :=
  if 0 < n.toNat ∧ Config.memSize < s.base + n.toNat then none
  else some ((List.range n.toNat).map fun r => Memory.read s.mem (s.base + r))

end Sys2Proof.Machine
end

