-- ==== Sys2Proof/Machine/Alu.lean ====
section
/-!
DEFINITION. Register load, arithmetic, logic, shift, random (spec/41_alu.md): 6xnn, 7xnn, 8xy0 to 8xy7, 8xyE, Cxnn.

`State.getV s` reads the state before the instruction, so every operand is latched (10_state.md R23; log 7). Byte arithmetic
is modulo 256 (R132).
-/

namespace Sys2Proof.Machine

/-- LD Vx, nn (R120). -/
def execLdImm (x : Reg) (nn : Byte) (s : State) : Host.Outcome State Fault Refusal :=
  .next (State.setV s x nn)

/-- ADD Vx, nn (R121): no flag. -/
def execAddImm (x : Reg) (nn : Byte) (s : State) : Host.Outcome State Fault Refusal :=
  .next (State.setV s x (State.getV s x + nn))

/-- LD Vx, Vy (R122). -/
def execLdReg (x y : Reg) (s : State) : Host.Outcome State Fault Refusal :=
  .next (State.setV s x (State.getV s y))

/-- OR Vx, Vy (R123): no flag. -/
def execOr (x y : Reg) (s : State) : Host.Outcome State Fault Refusal :=
  .next (State.setV s x (State.getV s x ||| State.getV s y))

/-- AND Vx, Vy (R124): no flag. -/
def execAnd (x y : Reg) (s : State) : Host.Outcome State Fault Refusal :=
  .next (State.setV s x (State.getV s x &&& State.getV s y))

/-- XOR Vx, Vy (R125): no flag. -/
def execXor (x y : Reg) (s : State) : Host.Outcome State Fault Refusal :=
  .next (State.setV s x (State.getV s x ^^^ State.getV s y))

/-- ADD Vx, Vy (R126): VF = carry. -/
def execAddReg (x y : Reg) (s : State) : Host.Outcome State Fault Refusal :=
  .next (State.setFlagAndResult s (Flag.carry (State.getV s x) (State.getV s y)) x (State.getV s x + State.getV s y))

/-- SUB Vx, Vy (R127): VF = 1 iff `vx > vy`, strictly. -/
def execSub (x y : Reg) (s : State) : Host.Outcome State Fault Refusal :=
  .next (State.setFlagAndResult s (Flag.greater (State.getV s x) (State.getV s y)) x (State.getV s x - State.getV s y))

/-- SHR Vx, Vy (R128): the source is V[y]; VF = its bit 0. -/
def execShr (x y : Reg) (s : State) : Host.Outcome State Fault Refusal :=
  .next (State.setFlagAndResult s (Flag.lowBit (State.getV s y)) x (State.getV s y >>> 1))

/-- SUBN Vx, Vy (R129): VF = 1 iff `vy > vx`, strictly. -/
def execSubn (x y : Reg) (s : State) : Host.Outcome State Fault Refusal :=
  .next (State.setFlagAndResult s (Flag.greater (State.getV s y) (State.getV s x)) x (State.getV s y - State.getV s x))

/-- SHL Vx, Vy (R130): the source is V[y]; VF = its bit 7. -/
def execShl (x y : Reg) (s : State) : Host.Outcome State Fault Refusal :=
  .next (State.setFlagAndResult s (Flag.highBit (State.getV s y)) x (State.getV s y <<< 1))

/-- RND Vx, nn (R131): `V[x] <- nn AND rnd`, `rnd` a free draw from `0..nn` (log 14). -/
def execRnd (x : Reg) (nn : Byte) (s : State) : Host.Outcome State Fault Refusal :=
  .next (State.setV s x (nn &&& Operand.draw nn s.inputs.rnd))

end Sys2Proof.Machine
end

