-- ==== Sys2Proof/Machine/Control.lean ====
section
/-!
DEFINITION. Control transfer (spec/40_control_flow.md): 00EE, 1nnn, 2nnn, 3xnn, 4xnn, 5xy0, 9xy0, Bnnn.

In every meaning `s.pc` is already the instruction's address plus 2 (00_scope.md R10).
-/

namespace Sys2Proof.Machine

/-- RET (R100): `pc <- pop()`, or `StackUnderflow`. -/
def execRet (s : State) : Host.Outcome State Fault Refusal :=
  match State.pop s with
  | none => halt s .stackUnderflow
  | some (a, t) => .next (State.setPc t a)

/-- JP nnn (R101). -/
def execJp (nnn : Addr12) (s : State) : Host.Outcome State Fault Refusal :=
  .next (State.setPc s (Operand.addr12 nnn))

/-- CALL nnn (R102): `push(pc); pc <- nnn`, or `StackOverflow` with `pc` left advanced. -/
def execCall (nnn : Addr12) (s : State) : Host.Outcome State Fault Refusal :=
  match State.push s s.pc with
  | none => halt s .stackOverflow
  | some t => .next (State.setPc t (Operand.addr12 nnn))

/-- SE Vx, nn (R103). -/
def execSeImm (x : Reg) (nn : Byte) (s : State) : Host.Outcome State Fault Refusal :=
  .next (State.skipIf s (State.getV s x == nn))

/-- SNE Vx, nn (R104). -/
def execSneImm (x : Reg) (nn : Byte) (s : State) : Host.Outcome State Fault Refusal :=
  .next (State.skipIf s (State.getV s x != nn))

/-- SE Vx, Vy (R105). -/
def execSeReg (x y : Reg) (s : State) : Host.Outcome State Fault Refusal :=
  .next (State.skipIf s (State.getV s x == State.getV s y))

/-- SNE Vx, Vy (R106). -/
def execSneReg (x y : Reg) (s : State) : Host.Outcome State Fault Refusal :=
  .next (State.skipIf s (State.getV s x != State.getV s y))

/-- JP V0, nnn (R107): the sum is at most 0x10FE and is not reduced. -/
def execJpV0 (nnn : Addr12) (s : State) : Host.Outcome State Fault Refusal :=
  .next (State.setPc s (Operand.addr12 nnn + Operand.byte16 (State.getV s 0)))

end Sys2Proof.Machine
end

