-- ==== Sys2Proof/Machine/Draw.lean ====
section
/-!
DEFINITION. Display clear and sprite drawing (spec/43_display.md): 00E0, Dxyn.
-/

namespace Sys2Proof.Machine

/-- CLS (R150): every pixel 0; VF and `dirty` unchanged (log 3). -/
def execCls (s : State) : Host.Outcome State Fault Refusal :=
  .next { s with disp := Display.blank }

/-- The draw itself, once the sprite bytes are read (R151): XOR onto the display, `VF <- hit`, `dirty <- 1`. -/
def State.drawSprite (s : State) (vx vy : Nat) (rows : List Byte) : State :=
  let c := Canvas.drawRows vx vy rows { disp := s.disp, hit := false }
  { State.setV s regF (Flag.collision c.hit) with disp := c.disp, dirty := true }

/-- DRW Vx, Vy, n (R151): `OutOfBounds` before anything is drawn (R154), else the draw at the unreduced coordinates
`(V[x], V[y])` (R153). -/
def execDrw (x y : Reg) (n : Nibble) (s : State) : Host.Outcome State Fault Refusal :=
  match State.spriteBytes s n with
  | none => halt s (.outOfBounds (max s.base Config.memSize))
  | some rows => .next (State.drawSprite s (State.getV s x).toNat (State.getV s y).toNat rows)

end Sys2Proof.Machine
end

