-- ==== Sys2Proof/Machine/Index.lean ====
section
/-!
DEFINITION. Index register and memory transfer (spec/42_index_memory.md): Annn, Fx1E, Fx29, Fx55, Fx65.
-/

namespace Sys2Proof.Machine

/-- LD I, nnn (R140). -/
def execLdI (nnn : Addr12) (s : State) : Host.Outcome State Fault Refusal :=
  .next (State.setI s (Operand.addr12 nnn))

/-- R141 for either value of the parameter `FX1E_SETS_VF`: `I` first, VF second (10_state.md R22), both from the sum of the
operands read before. -/
def State.addIndex (s : State) (x : Reg) (setsVf : Bool) : State :=
  let sum := s.i.toNat + (State.getV s x).toNat
  let t := State.setI s (BitVec.ofNat 16 sum)
  if setsVf then State.setV t regF (Flag.indexOverflow sum) else t

/-- ADD I, Vx (R141; log 6). -/
def execAddI (x : Reg) (s : State) : Host.Outcome State Fault Refusal :=
  .next (State.addIndex s x Config.fx1eSetsVf)

/-- LD F, Vx (R142): an address only, no memory is read. -/
def execLdFont (x : Reg) (s : State) : Host.Outcome State Fault Refusal :=
  .next (State.setI s (Operand.fontAddr (State.getV s x)))

/-- LD [I], Vx (R143): `V[0]..V[x]` to memory; on `OutOfBounds` the bytes before it stay written. `I` is unchanged. -/
def execStore (x : Reg) (s : State) : Host.Outcome State Fault Refusal :=
  match Memory.storeRegs s.v s.base 0 (Operand.blockLength x) s.mem with
  | (m, none) => .next { s with mem := m }
  | (m, some a) => halt { s with mem := m } (.outOfBounds a)

/-- LD Vx, [I] (R144): memory to `V[0]..V[x]`; on `OutOfBounds` the registers before it stay loaded. `I` is unchanged. -/
def execLoad (x : Reg) (s : State) : Host.Outcome State Fault Refusal :=
  match Memory.loadRegs s.mem s.base 0 (Operand.blockLength x) s.v with
  | (v, none) => .next { s with v := v }
  | (v, some a) => halt { s with v := v } (.outOfBounds a)

end Sys2Proof.Machine
end

