-- ==== Sys2Proof/Machine/TimersKeys.lean ====
section
/-!
DEFINITION. Timer access, key wait, key-conditional skips (spec/44_timers_keys.md): Fx07, Fx0A, Fx15, Fx18, ExA1, Ex9E.
-/

namespace Sys2Proof.Machine

/-- LD Vx, K (R161), the executing step: the machine waits; its own key sample is not used (log 16). The waiting steps are
`State.sampleKey`. -/
def execLdKey (x : Reg) (s : State) : Host.Outcome State Fault Refusal :=
  .next { s with status := .waitingForKey x }

/-- LD Vx, DT (R160). -/
def execLdFromDt (x : Reg) (s : State) : Host.Outcome State Fault Refusal :=
  .next (State.setV s x s.dt)

/-- LD DT, Vx (R162). -/
def execLdDt (x : Reg) (s : State) : Host.Outcome State Fault Refusal :=
  .next (State.setDt s (State.getV s x))

/-- LD ST, Vx (R163). -/
def execLdSt (x : Reg) (s : State) : Host.Outcome State Fault Refusal :=
  .next (State.setSt s (State.getV s x))

/-- SKNP Vx (R165): skip if not `pressed(V[x])`. -/
def execSknp (x : Reg) (s : State) : Host.Outcome State Fault Refusal :=
  .next (State.skipIf s (!State.pressed s (State.getV s x)))

/-- SKP Vx (R164): skip if `pressed(V[x])`. -/
def execSkp (x : Reg) (s : State) : Host.Outcome State Fault Refusal :=
  .next (State.skipIf s (State.pressed s (State.getV s x)))

end Sys2Proof.Machine
end

