-- ==== Sys2Proof/Machine/Cycle.lean ====
section
/-!
DEFINITION. The cycle of the core (spec/30_encoding.md R73): fetch, advance, decode, execute.
-/

namespace Sys2Proof.Machine

/-- Decode and execute a fetched word, `s` having `pc` already advanced: `UnknownOpcode(w)` changes nothing else (R76). -/
def runWord (w : Word) (s : State) : Host.Outcome State Fault Refusal :=
  match decode w with
  | .error _ => halt s (.unknownOpcode w)
  | .ok i => exec i s

/-- One cycle in status `running` (R73): a fetch that fails leaves `pc` where it is, everything later finds it advanced
(60_exceptions.md R177). -/
def runCycle (s : State) : Host.Outcome State Fault Refusal :=
  match State.fetch s with
  | .error a => halt s (.outOfBounds a)
  | .ok w => runWord w (State.advancePc s)

/-- The next step's inputs, if there is a next state. -/
def withNextInputs : Host.Outcome State Fault Refusal → Host.Outcome State Fault Refusal
  | .next s => .next (State.nextInputs s)
  | .fault f => .fault f
  | .refused r => .refused r

/-- One step, by status (R73). A halted machine changes nothing, no timer either (60_exceptions.md R178, R185; log 22).
Otherwise what happens between steps comes first (R184), then the key sample of a waiting machine or the cycle of a running
one. -/
def cycle (s : State) : Host.Outcome State Fault Refusal :=
  match s.status with
  | .halted _ => .next s
  | .waitingForKey x => withNextInputs (.next (State.sampleKey (State.betweenSteps s) x))
  | .running => withNextInputs (runCycle (State.betweenSteps s))

end Sys2Proof.Machine
end

