-- ==== Sys2Proof/Machine/Step.lean ====
section
/-! DEFINITION. The step, and the host's placing of an instruction where it fetches. Both only call what Cycle.lean and
Ops.lean define. -/

namespace Sys2Proof.Machine

/-- One step of the machine (spec/30_encoding.md R73). -/
def step (s : State) : Host.Outcome State Fault Refusal := cycle s

/-- `s` with the instruction word that the host's bits stand for stored where `step` fetches its next instruction. -/
def State.withFetchWord (s : State) (nbits w : Nat) : State := State.placeWord s (tableWord nbits w)

end Sys2Proof.Machine
end

