-- ==== Sys2Proof/Machine/HostPort.lean ====
section
/-!
DEFINITION. The host interface (spec/60_exceptions.md R187): what the host does to the machine between steps and what it gets.

`step` itself is Step.lean, repeated stepping is `Host.Core.run`. The key sample, the random byte, ticks and display reads
that fall between two steps of a run come to the step through `State.inputs`; the operations here are the same moves taken
by themselves.
-/

namespace Sys2Proof.Machine

/-- Reset, from any state (70_reset_and_hazards.md R190): the only way out of `halted`. -/
def hostReset (_ : State) : State := State.reset

/-- Why a load is refused: not a machine status (60_exceptions.md R175). -/
inductive LoadError where
  /-- The image is longer than the memory from 0x200 on; nothing was changed. -/
  | loadTooLarge
deriving DecidableEq, Repr

/-- `load(bytes, offset)`: all the bytes, or nothing if they do not fit (20_memory.md R59). -/
def Memory.load (m : Memory) (offset : Nat) (bytes : List Byte) : Option Memory :=
  if Config.memSize < offset + bytes.length then none else some (Memory.writeBytes m offset bytes)

/-- The program load (70_reset_and_hazards.md R192): memory from 0x200 on, and nothing else. -/
def loadImage (image : List Byte) (s : State) : Except LoadError State :=
  match Memory.load s.mem Config.progBase image with
  | none => .error .loadTooLarge
  | some m => .ok { s with mem := m }

/-- The renderer's read: the grid and "dirty since last read"; clears `dirty` only (10_state.md R32). -/
def readDisplay (s : State) : (Display × Bool) × State := ((s.disp, s.dirty), State.rendererRead s true)

/-- "tone active this tick", evaluated before the tick's decrement (60_exceptions.md R183; log 18). -/
def State.toneThisTick (s : State) : Bool := 0 < s.st.toNat

/-- The tone as a level between ticks (R183). -/
def State.toneLevel (s : State) : Bool := s.st != 0

/-- The tone output at each of the next `n` ticks, no instruction in between. -/
def State.toneTrace (s : State) : Nat → List Bool
  | 0 => []
  | n + 1 => State.toneThisTick s :: State.toneTrace (State.tick s) n

/-- Cause numbers, the spec's own (R188; log 19). -/
def HaltReason.code : HaltReason → Nat
  | .unknownOpcode _ => 1
  | .outOfBounds _ => 2
  | .stackUnderflow => 3
  | .stackOverflow => 4

/-- The cause number of the host operation's refusal (R188). -/
def LoadError.code : LoadError → Nat
  | .loadTooLarge => 5

/-- The recorded value of a halt (R188). -/
def HaltReason.recorded : HaltReason → Option Nat
  | .unknownOpcode w => some w.toNat
  | .outOfBounds a => some a
  | .stackUnderflow => none
  | .stackOverflow => none

/-- What the host reads of the status (R187). -/
structure StatusReport where
  /-- The status itself. -/
  status : Status
  /-- The cause number, 0 when not halted (R188). -/
  code : Nat
  /-- The offending word or address where there is one (R188). -/
  recorded : Option Nat
  /-- The program counter (R187: on a halt). -/
  pc : Word
deriving DecidableEq, Repr

/-- The status as the host reads it between steps; changes nothing (R187). -/
def State.report (s : State) : StatusReport :=
  match s.status with
  | .halted r => { status := s.status, code := HaltReason.code r, recorded := HaltReason.recorded r, pc := s.pc }
  | _ => { status := s.status, code := 0, recorded := none, pc := s.pc }

end Sys2Proof.Machine
end

