-- ==== Sys2Proof/Safety.lean ====
section
/-!
DEFINITION. The terms in which claims about the machine are stated: what counts as a safe state, the invariant, the parked
state, what a sprite covers, which instructions may write what, and what it means that nothing else changed.
-/

namespace Sys2Proof.Machine

/-- A state is safe if no fatal condition has been met: "a model treats a halted state as a fault: never a successful end of
a run" (60_exceptions.md R178). -/
def State.safe (s : State) : Bool :=
  match s.status with
  | .running => true
  | .waitingForKey _ => true
  | .halted _ => false

/-- The parked state (70_reset_and_hazards.md R200): running, and the word at `pc` is a jump to itself. -/
def State.parked (s : State) (nnn : Addr12) : Prop :=
  s.status = .running ∧ State.fetch s = .ok (encode (.jp nnn)) ∧ s.pc.toNat = nnn.toNat

/-- The machine's invariant: memory in canonical form, at most 16 stack entries, each of them at most 4096, and `pc` at most
0x10FE (10_state.md R27, R30). It rules out states no run reaches; every step keeps it. -/
def State.Inv (s : State) : Prop :=
  Memory.wf s.mem ∧ s.stack.length ≤ 16 ∧ (∀ a ∈ s.stack, a.toNat ≤ 4096) ∧ s.pc.toNat ≤ 0x10FE

/-- The sprite of a Dxyn drawn at `(vx, vy)` has a 1 bit at column `px`, row `py` (43_display.md R152): row `py - vy` of its
`n` bytes at `I`, bit `7 - (px - vx)`. Coordinates are unbounded naturals (R153). -/
def State.spriteBit (s : State) (vx vy n px py : Nat) : Bool :=
  decide (vx ≤ px ∧ px < vx + 8 ∧ vy ≤ py ∧ py < vy + n)
    && (Memory.read s.mem (s.i.toNat + (py - vy))).getLsbD (7 - (px - vx))

/-- Every byte of memory reads in `t` as it did in `s`. -/
def SameMemory (s t : State) : Prop := ∀ a, Memory.read t.mem a = Memory.read s.mem a

/-- Every register but those in the list reads in `t` as it did in `s`. -/
def SameRegsExcept (written : List Reg) (s t : State) : Prop :=
  ∀ r, r ∉ written → State.getV t r = State.getV s r

/-- Nothing has changed but the registers in the list: every other register, `pc`, the index register, the timers, the stack,
the display, `dirty`, the status and every byte of memory are as they were. -/
def OnlyRegs (written : List Reg) (s t : State) : Prop :=
  t = { s with v := t.v } ∧ SameRegsExcept written s t ∧ SameMemory s t

/-- Nothing has changed but `pc`. -/
def OnlyPc (s t : State) : Prop := t = { s with pc := t.pc } ∧ SameRegsExcept [] s t ∧ SameMemory s t

/-- Nothing has changed but the index register. -/
def OnlyIndex (s t : State) : Prop := t = { s with i := t.i } ∧ SameRegsExcept [] s t ∧ SameMemory s t

/-- Nothing has changed but the status, which is now `halted reason` (60_exceptions.md R176). -/
def OnlyHalts (reason : HaltReason) (s t : State) : Prop :=
  t = { s with status := .halted reason } ∧ SameRegsExcept [] s t ∧ SameMemory s t

/-- The instruction writes VF: as its flag, or as its destination because its `x` field is 0xF (10_state.md R21). -/
def writesVf : Instr → Bool
  | .addReg _ _ => true
  | .sub _ _ => true
  | .shr _ _ => true
  | .subn _ _ => true
  | .shl _ _ => true
  | .drw _ _ _ => true
  | .addI _ => true
  | .ldImm x _ => x == 0xF
  | .addImm x _ => x == 0xF
  | .ldReg x _ => x == 0xF
  | .orReg x _ => x == 0xF
  | .andReg x _ => x == 0xF
  | .xorReg x _ => x == 0xF
  | .rnd x _ => x == 0xF
  | .load x => x == 0xF
  | .ldFromDt x => x == 0xF
  | .cls _ => false
  | .ret _ => false
  | .jp _ => false
  | .call _ => false
  | .seImm _ _ => false
  | .sneImm _ _ => false
  | .seReg _ _ _ => false
  | .sneReg _ _ _ => false
  | .ldI _ => false
  | .jpV0 _ => false
  | .ldFont _ => false
  | .store _ => false
  | .ldKey _ => false
  | .ldDt _ => false
  | .ldSt _ => false
  | .sknp _ => false
  | .skp _ => false

/-- `t` equals `s` but for the sound timer and the frame-dirty flag, which no instruction reads (10_state.md R29, R32). -/
def EqualButHostFlags (s t : State) : Prop := t = { s with st := t.st, dirty := t.dirty }

end Sys2Proof.Machine
end

