-- ==== Sys2Proof/Certificates/Slice0/Obligations.lean ====
section
/-!
DEFINITION. The statements about the machine for the provers, from the spec's numbered rules.

In every statement about `exec`, `s.pc` is already the instruction's address plus 2 (00_scope.md R10). A frame is written with
`OnlyRegs`, `OnlyPc`, `OnlyIndex`, `OnlyHalts` and `SameMemory` of Safety.lean: what they do not name is unchanged.
-/

open Sys2Proof Sys2Proof.Machine

/-! ### Encoding (30_encoding.md) -/

/-- R71, R72, R78, R83: decoding the encoding of an instruction, as a word or as bytes in memory order, gives it back, with
every field at every value. For the bits that the decoder ignores in the four alias rows this is the model's choice (R79's
decision D9; log 9): cls, ret, seReg and sneReg carry them as the field `ignored`. -/
def Obligations.DecodeOfEncodeIsIdentity : Prop :=
  ∀ i : Instr, decode (encode i) = .ok i ∧ decodeBytes (encodeBytes i) = .ok (i, [])

/-- R78, R83: a word that decodes is the encoding of what it decodes to, so no two words are one term of `Instr`. That an
alias is a term of its own, beside the canonical instruction that it is by R12 and R79 and runs as (`AliasesRunAsCanonical`),
is the model's choice (decision D9; log 9): cls, ret, seReg and sneReg carry the ignored bits. -/
def Obligations.EncodeOfDecodeIsIdentity : Prop :=
  ∀ (w : Word) (i : Instr), decode w = .ok i → encode i = w

/-- R76, R78: the decoder follows the opcode map. A word that decodes is accepted by the row of its instruction and by no
other row; a word that does not is accepted by no row and is rejected as `UnknownOpcode` of itself. The masks of rows 1, 2, 7
and 19 follow R79's decision D9, so that the 7710 alias words decode is the model's choice (log 9). -/
def Obligations.DecodeFollowsOpcodeMap : Prop :=
  ∀ w : Word,
    (∀ i, decode w = .ok i → i.row ∈ opcodeMap ∧ i.row.accepts w = true ∧
      ∀ row ∈ opcodeMap, row.accepts w = true → row = i.row) ∧
    ((∀ i, decode w ≠ .ok i) → decode w = .error (.unknownOpcode w) ∧ ∀ row ∈ opcodeMap, row.accepts w = false)

/-- Words written out from R71, R72 and R78, one or more of each family, decode to the instructions they stand for, or are
rejected: every word of the vectors E1 to E13 of 95_test_vectors.md and a few more. That the aliases among them (0x0AE0,
0x03EE, 0x5ABF, 0x9AB1) decode, and to a term that keeps the ignored bits, is the model's choice (R79's decision D9; log
9). -/
def Obligations.SampleWordsDecode : Prop :=
  (decode 0x00E0 = .ok (.cls 0) ∧ decode 0x0AE0 = .ok (.cls 0xA) ∧ decode 0x00EE = .ok (.ret 0) ∧
    decode 0x03EE = .ok (.ret 3) ∧ decode 0x1204 = .ok (.jp 0x204) ∧ decode 0x2300 = .ok (.call 0x300) ∧
    decode 0x3A42 = .ok (.seImm 0xA 0x42) ∧ decode 0x5AB0 = .ok (.seReg 0xA 0xB 0) ∧
    decode 0x5ABF = .ok (.seReg 0xA 0xB 0xF) ∧ decode 0x9AB0 = .ok (.sneReg 0xA 0xB 0) ∧
    decode 0x9AB1 = .ok (.sneReg 0xA 0xB 1) ∧ decode 0xBFFF = .ok (.jpV0 0xFFF)) ∧
  (decode 0x73FF = .ok (.addImm 3 0xFF) ∧ decode 0x8125 = .ok (.sub 1 2) ∧ decode 0x8ABE = .ok (.shl 0xA 0xB) ∧
    decode 0xCA7F = .ok (.rnd 0xA 0x7F) ∧ decode 0xA300 = .ok (.ldI 0x300) ∧ decode 0xDABC = .ok (.drw 0xA 0xB 12)) ∧
  (decode 0xFA07 = .ok (.ldFromDt 0xA) ∧ decode 0xFA0A = .ok (.ldKey 0xA) ∧ decode 0xFA15 = .ok (.ldDt 0xA) ∧
    decode 0xFA18 = .ok (.ldSt 0xA) ∧ decode 0xFA1E = .ok (.addI 0xA) ∧ decode 0xFA29 = .ok (.ldFont 0xA) ∧
    decode 0xFA55 = .ok (.store 0xA) ∧ decode 0xFA65 = .ok (.load 0xA) ∧ decode 0xEA9E = .ok (.skp 0xA) ∧
    decode 0xEAA1 = .ok (.sknp 0xA)) ∧
  (decode 0x0000 = .error (.unknownOpcode 0x0000) ∧ decode 0x00E1 = .error (.unknownOpcode 0x00E1) ∧
    decode 0x0123 = .error (.unknownOpcode 0x0123) ∧ decode 0x00FF = .error (.unknownOpcode 0x00FF) ∧
    decode 0x8AB8 = .error (.unknownOpcode 0x8AB8) ∧ decode 0xEA9F = .error (.unknownOpcode 0xEA9F) ∧
    decode 0xE000 = .error (.unknownOpcode 0xE000) ∧ decode 0xFA33 = .error (.unknownOpcode 0xFA33))

/-- R79, decision D9 (log 9; the model's choice follows the spec's own decision): an alias runs as the canonical instruction,
whose word has the ignored bits 0. -/
def Obligations.AliasesRunAsCanonical : Prop :=
  ∀ (i : Instr) (s : State), exec i s = exec i.canonical s ∧ i.canonical.wellFormed = true

/-! ### Reset (10_state.md R40) -/

/-- The reset values that R40 takes from the source: `pc`, the display, the font copy (R35) and the empty stack. -/
def Obligations.ResetStatedValues : Prop :=
  State.reset.pc = 0x200 ∧ (∀ px py, Display.pixel State.reset.disp px py = false) ∧
  (∀ (k : Nat) (h : k < 80), Memory.read State.reset.mem (Config.fontBase.val + k) = Config.fontData[k]) ∧
  State.reset.stack = []

/-- The reset values that R40 marks as the spec's own decisions D4 and D6 (log 2, 3): the model's choice follows them. -/
def Obligations.ResetDecidedValues : Prop :=
  (∀ r, State.getV State.reset r = 0) ∧ State.reset.i = 0 ∧ State.reset.dt = 0 ∧ State.reset.st = 0 ∧
  (∀ a, a < Config.fontBase.val ∨ Config.fontBase.val + 80 ≤ a → Memory.read State.reset.mem a = 0) ∧
  State.reset.dirty = false ∧ State.reset.status = .running

/-- The invariant that `StepKeepsInvariant` names (R27, R30; memory in canonical form, log 29) holds at reset. -/
def Obligations.ResetMeetsInvariant : Prop := State.Inv State.reset

/-- R194, which rests on decision D4 (log 2): a machine with nothing loaded halts at its first step on the word 0x0000. -/
def Obligations.FirstStepWithNothingLoaded : Prop :=
  ∃ t, step State.reset = .next t ∧ t.status = .halted (.unknownOpcode 0x0000) ∧ t.pc = 0x202

/-! ### Memory and fetch (20_memory.md) -/

/-- R50 (the representation is the model's, log 29): two memories in canonical form that read the same at every address are
the same data. -/
def Obligations.EqualReadsGiveEqualMemories : Prop :=
  ∀ m m' : Memory, Memory.wf m → Memory.wf m' → (∀ a, Memory.read m a = Memory.read m' a) → m = m'

/-- R52, R53, R54, R172 a (decisions D8 and D20 for an odd `pc` and the address reported; log 8, 19): the fetched word has the
lower-addressed byte as its high byte, at every `pc` up to 4094, odd or even; from 4095 on the fetch fails. -/
def Obligations.FetchIsBigEndian : Prop :=
  ∀ s : State,
    (s.pc.toNat ≤ 4094 → ∃ w, State.fetch s = .ok w ∧
      w.toNat = 256 * (Memory.read s.mem s.pc.toNat).toNat + (Memory.read s.mem (s.pc.toNat + 1)).toNat) ∧
    (4095 ≤ s.pc.toNat → State.fetch s = .error (max s.pc.toNat 4096))

/-! ### The step (30_encoding.md R73) -/

/-- R10, R73: a step of a running machine whose bytes at `pc` decode to `i` is `exec i` at that state with `pc` advanced by 2.
What the step adds around it is the model's own arrangement (log 1, 17, 24): the timer ticks and the renderer's read that fall
before the step are applied at its start, and afterwards the next inputs are put in place. -/
def Obligations.StepRunsDecodedInstruction : Prop :=
  ∀ (s : State) (i : Instr) (t : State),
    s.status = .running → s.pc.toNat ≤ 4094 →
    decode (Memory.read s.mem s.pc.toNat ++ Memory.read s.mem (s.pc.toNat + 1)) = .ok i →
    exec i { s with
      pc := s.pc + 2, dt := Timer.after s.inputs.ticks s.dt, st := Timer.after s.inputs.ticks s.st,
      dirty := s.dirty && !s.inputs.displayRead } = .next t →
    step s = .next { t with inputs := Config.inputs (t.moment + 1), moment := t.moment + 1 }

/-- R73, R178, R185 (decisions D18 and D28; log 17, 22): a step of a halted machine changes nothing. -/
def Obligations.HaltedStepChangesNothing : Prop :=
  ∀ (s : State) (r : HaltReason), s.status = .halted r → step s = .next s

/-- R161, R185 (decisions D17 and D18; log 16, 17): a waiting machine with no key goes on waiting; a key sample is written to
the target register and the machine runs, fetching nothing in this step. The timers tick on. That the ticks and the renderer's
read that fall before the step, the latter clearing `dirty`, are applied at its start is the model's choice (log 17, 24). -/
def Obligations.WaitingStepSamplesKey : Prop :=
  ∀ (s : State) (x : Reg), s.status = .waitingForKey x →
    ∃ t, step s = .next t ∧ t.pc = s.pc ∧ t.i = s.i ∧ t.stack = s.stack ∧ t.disp = s.disp ∧ SameMemory s t ∧
      t.dt.toNat = s.dt.toNat - s.inputs.ticks ∧ t.st.toNat = s.st.toNat - s.inputs.ticks ∧
      t.dirty = (s.dirty && !s.inputs.displayRead) ∧
      (s.inputs.key = none → t.status = .waitingForKey x ∧ SameRegsExcept [] s t) ∧
      (∀ k, s.inputs.key = some k →
        t.status = .running ∧ (State.getV t x).toNat = k.toNat ∧ SameRegsExcept [x] s t)

/-- R172 a, R177 (decisions D20 and D21; log 19, 20): a fetch from 4095 or above halts with `OutOfBounds`, `pc` unchanged, and
nothing else has changed but what happens between steps. That the ticks and the renderer's read that fall before the step are
applied at its start is the model's choice (log 17, 24). -/
def Obligations.FetchFaultHalts : Prop :=
  ∀ s : State, s.status = .running → 4095 ≤ s.pc.toNat →
    ∃ t, step s = .next t ∧ t.status = .halted (.outOfBounds (max s.pc.toNat 4096)) ∧ t.pc = s.pc ∧
      SameRegsExcept [] s t ∧ SameMemory s t ∧ t.i = s.i ∧ t.stack = s.stack ∧ t.disp = s.disp ∧
      t.dt.toNat = s.dt.toNat - s.inputs.ticks ∧ t.st.toNat = s.st.toNat - s.inputs.ticks ∧
      t.dirty = (s.dirty && !s.inputs.displayRead)

/-- R76, R171, R177: a word that is no instruction halts the machine, which records the word; `pc` is the word's address plus
2 (decision D21; log 20) and nothing else has changed but what happens between steps. That the ticks and the renderer's read
that fall before the step are applied at its start is the model's choice (log 17, 24). -/
def Obligations.UnknownOpcodeHalts : Prop :=
  ∀ (s : State) (w : Word), s.status = .running → s.pc.toNat ≤ 4094 →
    w = Memory.read s.mem s.pc.toNat ++ Memory.read s.mem (s.pc.toNat + 1) → (∀ i, decode w ≠ .ok i) →
    ∃ t, step s = .next t ∧ t.status = .halted (.unknownOpcode w) ∧ t.pc.toNat = s.pc.toNat + 2 ∧
      SameRegsExcept [] s t ∧ SameMemory s t ∧ t.i = s.i ∧ t.stack = s.stack ∧ t.disp = s.disp ∧
      t.dt.toNat = s.dt.toNat - s.inputs.ticks ∧ t.st.toNat = s.st.toNat - s.inputs.ticks ∧
      t.dirty = (s.dirty && !s.inputs.displayRead)

/-- A step of any state, one no run reaches too, answers a next state. Every exceptional condition is a status the machine
enters (R170, R176); that entering it is a next state, and that a halted machine has a next state too, its own (decision D28),
is the model's choice (log 22). -/
def Obligations.StepAlwaysAnswersNext : Prop := ∀ s : State, ∃ t, step s = .next t

/-! ### Timers (60_exceptions.md R182 to R184) -/

/-- R182: a tick decrements both timers, independently, each floored at 0, and touches nothing else. -/
def Obligations.TickFloorsBothTimers : Prop :=
  ∀ s : State, (State.tick s).dt.toNat = s.dt.toNat - 1 ∧ (State.tick s).st.toNat = s.st.toNat - 1 ∧
    State.tick s = { s with dt := (State.tick s).dt, st := (State.tick s).st } ∧
    SameRegsExcept [] s (State.tick s) ∧ SameMemory s (State.tick s)

/-- R182, R184: what the step applies before it as `n` ticks is `n` single ticks one after the other. -/
def Obligations.AdvanceTimersIsRepeatedTicks : Prop :=
  ∀ (n : Nat) (s : State), State.advanceTimers s n = Nat.iterate State.tick n s

/-- R183, decision D19 (log 18): with the sound timer at `v`, the tone is active on exactly the next `v` ticks and silent
after them. -/
def Obligations.ToneLastsAsManyTicksAsWritten : Prop :=
  ∀ (s : State) (n : Nat), State.toneTrace s n =
    List.replicate (min n s.st.toNat) true ++ List.replicate (n - s.st.toNat) false

/-! ### Control transfer (40_control_flow.md) -/

/-- R100 (decision D9 for the ignored bits; log 9): RET loads `pc` with the newest stack entry and removes it; with an empty
stack it halts with `StackUnderflow` and changes nothing else. -/
def Obligations.ReturnPopsOrUnderflows : Prop :=
  ∀ (k : Nibble) (s : State),
    (∀ a rest, s.stack = a :: rest →
      ∃ t, exec (.ret k) s = .next t ∧ t.pc = a ∧ t.stack = rest ∧
        t = { s with pc := t.pc, stack := t.stack } ∧ SameRegsExcept [] s t ∧ SameMemory s t) ∧
    (s.stack = [] → ∃ t, exec (.ret k) s = .next t ∧ OnlyHalts .stackUnderflow s t)

/-- R101: the word `1nnn` is JP, which loads the zero-extended address, whatever its parity. -/
def Obligations.JumpLoadsTarget : Prop :=
  ∀ (nnn : Addr12) (s : State), decode (0x1#4 ++ nnn) = .ok (.jp nnn) ∧
    ∃ t, exec (.jp nnn) s = .next t ∧ t.pc.toNat = nnn.toNat ∧ OnlyPc s t

/-- R102: the word `2nnn` is CALL, which pushes the advanced `pc` and jumps; with 16 entries on the stack it halts with
`StackOverflow`, nothing pushed and `pc` kept. -/
def Obligations.CallPushesOrOverflows : Prop :=
  ∀ (nnn : Addr12) (s : State), decode (0x2#4 ++ nnn) = .ok (.call nnn) ∧
    (s.stack.length < 16 →
      ∃ t, exec (.call nnn) s = .next t ∧ t.pc.toNat = nnn.toNat ∧ t.stack = s.pc :: s.stack ∧
        t = { s with pc := t.pc, stack := t.stack } ∧ SameRegsExcept [] s t ∧ SameMemory s t) ∧
    (16 ≤ s.stack.length → ∃ t, exec (.call nnn) s = .next t ∧ OnlyHalts .stackOverflow s t)

/-- Source example S5 (R100, R102; decision D9 for the ignored bits of RET, the model's choice, log 9): a CALL followed by a
RET brings back the whole state, `pc` being the instruction after the CALL and the stack depth what it was. -/
def Obligations.CallThenReturnRestoresState : Prop :=
  ∀ (nnn : Addr12) (k : Nibble) (s : State), s.stack.length < 16 →
    ∃ t, exec (.call nnn) s = .next t ∧ exec (.ret k) t = .next s

/-- Source example S6 (R102, R174): from an empty stack sixteen CALLs go through and the seventeenth halts with
`StackOverflow`. -/
def Obligations.SeventeenthCallOverflows : Prop :=
  ∀ (nnn : Addr12) (s : State), s.stack = [] →
    ∃ f : Nat → State, f 0 = s ∧
      (∀ k, k < 16 → exec (.call nnn) (f k) = .next (f (k + 1)) ∧ (f (k + 1)).status = s.status) ∧
      (f 16).stack.length = 16 ∧ ∃ t, exec (.call nnn) (f 16) = .next t ∧ OnlyHalts .stackOverflow (f 16) t

/-- R103, R104: the words `3xnn` and `4xnn` are SE and SNE with an immediate, which skip the next instruction iff the register
is, or is not, the immediate. -/
def Obligations.ImmediateSkips : Prop :=
  ∀ (x : Reg) (nn : Byte) (s : State),
    decode (0x3#4 ++ x ++ nn) = .ok (.seImm x nn) ∧ decode (0x4#4 ++ x ++ nn) = .ok (.sneImm x nn) ∧
    (∃ t, exec (.seImm x nn) s = .next t ∧ t.pc = (if State.getV s x = nn then s.pc + 2 else s.pc) ∧ OnlyPc s t) ∧
    (∃ t, exec (.sneImm x nn) s = .next t ∧ t.pc = (if State.getV s x ≠ nn then s.pc + 2 else s.pc) ∧ OnlyPc s t)

/-- R105, R106 (decision D9; log 9): SE and SNE with two registers skip the next instruction iff the registers are, or are
not, equal, for every value of the bits the decoder ignores. -/
def Obligations.RegisterSkips : Prop :=
  ∀ (x y : Reg) (k : Nibble) (s : State),
    (∃ t, exec (.seReg x y k) s = .next t ∧
      t.pc = (if State.getV s x = State.getV s y then s.pc + 2 else s.pc) ∧ OnlyPc s t) ∧
    (∃ t, exec (.sneReg x y k) s = .next t ∧
      t.pc = (if State.getV s x ≠ State.getV s y then s.pc + 2 else s.pc) ∧ OnlyPc s t)

/-- R107: the word `Bnnn` is JP V0, which loads the exact sum of the address and V0, not reduced to 12 bits. -/
def Obligations.JumpV0AddsRegisterZero : Prop :=
  ∀ (nnn : Addr12) (s : State), decode (0xB#4 ++ nnn) = .ok (.jpV0 nnn) ∧
    ∃ t, exec (.jpV0 nnn) s = .next t ∧ t.pc.toNat = nnn.toNat + (State.getV s 0).toNat ∧ OnlyPc s t

/-! ### Register load, arithmetic, logic, shift, random (41_alu.md) -/

/-- R120, R122: the words `6xnn` and `8xy0` are the two register loads. -/
def Obligations.RegisterLoads : Prop :=
  ∀ (x y : Reg) (nn : Byte) (s : State),
    decode (0x6#4 ++ x ++ nn) = .ok (.ldImm x nn) ∧ decode (0x8#4 ++ x ++ y ++ 0x0#4) = .ok (.ldReg x y) ∧
    (∃ t, exec (.ldImm x nn) s = .next t ∧ State.getV t x = nn ∧ OnlyRegs [x] s t) ∧
    (∃ t, exec (.ldReg x y) s = .next t ∧ State.getV t x = State.getV s y ∧ OnlyRegs [x] s t)

/-- R121: the word `7xnn` is ADD with an immediate, which wraps modulo 256 and writes no flag. -/
def Obligations.AddImmediateWrapsWithoutFlag : Prop :=
  ∀ (x : Reg) (nn : Byte) (s : State),
    decode (0x7#4 ++ x ++ nn) = .ok (.addImm x nn) ∧
    ∃ t, exec (.addImm x nn) s = .next t ∧
      (State.getV t x).toNat = ((State.getV s x).toNat + nn.toNat) % 256 ∧ OnlyRegs [x] s t

/-- R123, R124, R125: the words `8xy1`, `8xy2` and `8xy3` are the logic operations, which act bit by bit and write no flag. -/
def Obligations.LogicIsBitwiseWithoutFlag : Prop :=
  ∀ (x y : Reg) (s : State),
    decode (0x8#4 ++ x ++ y ++ 0x1#4) = .ok (.orReg x y) ∧ decode (0x8#4 ++ x ++ y ++ 0x2#4) = .ok (.andReg x y) ∧
    decode (0x8#4 ++ x ++ y ++ 0x3#4) = .ok (.xorReg x y) ∧
    (∃ t, exec (.orReg x y) s = .next t ∧ OnlyRegs [x] s t ∧
      ∀ k, (State.getV t x).getLsbD k = ((State.getV s x).getLsbD k || (State.getV s y).getLsbD k)) ∧
    (∃ t, exec (.andReg x y) s = .next t ∧ OnlyRegs [x] s t ∧
      ∀ k, (State.getV t x).getLsbD k = ((State.getV s x).getLsbD k && (State.getV s y).getLsbD k)) ∧
    (∃ t, exec (.xorReg x y) s = .next t ∧ OnlyRegs [x] s t ∧
      ∀ k, (State.getV t x).getLsbD k = ((State.getV s x).getLsbD k ^^ (State.getV s y).getLsbD k))

/-- R126 (R22: with `x = 0xF` the sum overwrites the flag; for `y = 0xF` the latch of R23, decision D7, log 7): the sum modulo
256 and the carry. -/
def Obligations.AddRegisterSetsCarry : Prop :=
  ∀ (x y : Reg) (s : State),
    ∃ t, exec (.addReg x y) s = .next t ∧
      (State.getV t x).toNat = ((State.getV s x).toNat + (State.getV s y).toNat) % 256 ∧
      (x ≠ 0xF → State.getV t 0xF = if 256 ≤ (State.getV s x).toNat + (State.getV s y).toNat then 1 else 0) ∧
      OnlyRegs [x, 0xF] s t

/-- R127, R129 (R22; R23, decision D7, log 7, for `y = 0xF`): the differences modulo 256; the flag is strictly greater, so 0
for equal operands. -/
def Obligations.SubtractsSetStrictFlag : Prop :=
  ∀ (x y : Reg) (s : State),
    (∃ t, exec (.sub x y) s = .next t ∧
      ((State.getV t x).toNat : Int) = ((State.getV s x).toNat - (State.getV s y).toNat : Int) % 256 ∧
      (x ≠ 0xF → State.getV t 0xF = if (State.getV s y).toNat < (State.getV s x).toNat then 1 else 0) ∧
      OnlyRegs [x, 0xF] s t) ∧
    (∃ t, exec (.subn x y) s = .next t ∧
      ((State.getV t x).toNat : Int) = ((State.getV s y).toNat - (State.getV s x).toNat : Int) % 256 ∧
      (x ≠ 0xF → State.getV t 0xF = if (State.getV s x).toNat < (State.getV s y).toNat then 1 else 0) ∧
      OnlyRegs [x, 0xF] s t)

/-- R128, R130 (R22; R23, decision D7, log 7, for `y = 0xF`): the shifts take V[y] as their source and put the bit shifted out
into VF. -/
def Obligations.ShiftsTakeSourceFromVy : Prop :=
  ∀ (x y : Reg) (s : State),
    (∃ t, exec (.shr x y) s = .next t ∧ (State.getV t x).toNat = (State.getV s y).toNat / 2 ∧
      (x ≠ 0xF → State.getV t 0xF = if (State.getV s y).toNat % 2 = 1 then 1 else 0) ∧ OnlyRegs [x, 0xF] s t) ∧
    (∃ t, exec (.shl x y) s = .next t ∧ (State.getV t x).toNat = (State.getV s y).toNat * 2 % 256 ∧
      (x ≠ 0xF → State.getV t 0xF = if 128 ≤ (State.getV s y).toNat then 1 else 0) ∧ OnlyRegs [x, 0xF] s t)

/-- R131, decision D15 (log 14): RND writes `nn AND rnd` for a draw `rnd` in `0..nn`, which is the step's random input itself
when that lies in the range. Holds for every random input. -/
def Obligations.RandomByteIsMaskedDraw : Prop :=
  ∀ (x : Reg) (nn : Byte) (s : State),
    ∃ t, exec (.rnd x nn) s = .next t ∧ OnlyRegs [x] s t ∧
      (∃ rnd : Byte, rnd.toNat ≤ nn.toNat ∧ State.getV t x = nn &&& rnd) ∧
      (s.inputs.rnd.toNat ≤ nn.toNat → State.getV t x = nn &&& s.inputs.rnd)

/-- R131, decision D15 (log 14): the set of possible results of RND is all bitwise subsets of `nn`: each of them comes out for
some random input, and nothing else does. -/
def Obligations.RandomResultsAreExactlyTheSubsets : Prop :=
  ∀ (x : Reg) (nn target : Byte) (s : State),
    (∃ (r : Byte) (t : State), exec (.rnd x nn) { s with inputs := { s.inputs with rnd := r } } = .next t ∧
      State.getV t x = target) ↔ target &&& nn = target

/-- R21: an instruction that changes VF is one of the flag writers or has its destination field at 0xF. -/
def Obligations.OnlyListedInstructionsWriteVF : Prop :=
  ∀ (i : Instr) (s t : State), exec i s = .next t → State.getV t 0xF ≠ State.getV s 0xF → writesVf i = true

/-! ### Index register and memory transfer (42_index_memory.md) -/

/-- R140: the word `Annn` is LD I, which loads the zero-extended address. -/
def Obligations.LoadIndex : Prop :=
  ∀ (nnn : Addr12) (s : State), decode (0xA#4 ++ nnn) = .ok (.ldI nnn) ∧
    ∃ t, exec (.ldI nnn) s = .next t ∧ t.i.toNat = nnn.toNat ∧ OnlyIndex s t

/-- R141, decision D10 (log 6): ADD I wraps at 16 bits, VF says whether the exact sum exceeds 0xFFF; with the parameter
`FX1E_SETS_VF` off, `I` alone is written. -/
def Obligations.AddIndexWrapsAndFlags : Prop :=
  ∀ (x : Reg) (s : State),
    (∃ t, exec (.addI x) s = .next t ∧ t.i.toNat = (s.i.toNat + (State.getV s x).toNat) % 65536 ∧
      State.getV t 0xF = (if 0xFFF < s.i.toNat + (State.getV s x).toNat then 1 else 0) ∧
      t = { s with i := t.i, v := t.v } ∧ SameRegsExcept [0xF] s t ∧ SameMemory s t) ∧
    (State.addIndex s x false).i.toNat = (s.i.toNat + (State.getV s x).toNat) % 65536 ∧
    OnlyIndex s (State.addIndex s x false)

/-- R142: the word `Fx29` is LD F, which computes the address of the glyph of V[x]'s low nibble, below 0x200, and reads no
memory. -/
def Obligations.FontAddressOfLowNibble : Prop :=
  ∀ (x : Reg) (s : State),
    decode (0xF#4 ++ x ++ 0x29#8) = .ok (.ldFont x) ∧
    ∃ t, exec (.ldFont x) s = .next t ∧
      t.i.toNat = Config.fontBase.val + 5 * ((State.getV s x).toNat % 16) ∧
      Config.fontBase.val ≤ t.i.toNat ∧ t.i.toNat ≤ Config.fontBase.val + 75 ∧ t.i.toNat < 0x200 ∧ OnlyIndex s t

/-- R143: Fx55 in range stores V[0] to V[x] at I to I + x, and leaves every other byte, `I` and the registers alone. -/
def Obligations.StoreRegistersInRange : Prop :=
  ∀ (x : Reg) (s : State), s.i.toNat + x.toNat ≤ 4095 →
    ∃ t, exec (.store x) s = .next t ∧
      (∀ r : Reg, r.toNat ≤ x.toNat → Memory.read t.mem (s.i.toNat + r.toNat) = State.getV s r) ∧
      (∀ a, a < s.i.toNat ∨ s.i.toNat + x.toNat < a → Memory.read t.mem a = Memory.read s.mem a) ∧
      t = { s with mem := t.mem } ∧ SameRegsExcept [] s t

/-- R143, R172 b, R177 (decision D14; log 13): Fx55 out of range halts at the first address above 4095; the bytes before it
are stored and no other is changed. -/
def Obligations.StoreRegistersOutOfRange : Prop :=
  ∀ (x : Reg) (s : State), 4095 < s.i.toNat + x.toNat →
    ∃ t, exec (.store x) s = .next t ∧ t.status = .halted (.outOfBounds (max s.i.toNat 4096)) ∧
      (∀ r : Reg, s.i.toNat + r.toNat ≤ 4095 → r.toNat ≤ x.toNat →
        Memory.read t.mem (s.i.toNat + r.toNat) = State.getV s r) ∧
      (∀ a, a < s.i.toNat ∨ 4095 < a → Memory.read t.mem a = Memory.read s.mem a) ∧
      t = { s with mem := t.mem, status := t.status } ∧ SameRegsExcept [] s t

/-- R144: Fx65 in range loads V[0] to V[x] from I to I + x, and leaves every other register, `I` and memory alone. -/
def Obligations.LoadRegistersInRange : Prop :=
  ∀ (x : Reg) (s : State), s.i.toNat + x.toNat ≤ 4095 →
    ∃ t, exec (.load x) s = .next t ∧
      (∀ r : Reg, r.toNat ≤ x.toNat → State.getV t r = Memory.read s.mem (s.i.toNat + r.toNat)) ∧
      (∀ r : Reg, x.toNat < r.toNat → State.getV t r = State.getV s r) ∧
      t = { s with v := t.v } ∧ SameMemory s t

/-- R144, R172 b, R177 (decision D14; log 13): Fx65 out of range halts at the first address above 4095; the registers before
it are loaded and no other is changed. -/
def Obligations.LoadRegistersOutOfRange : Prop :=
  ∀ (x : Reg) (s : State), 4095 < s.i.toNat + x.toNat →
    ∃ t, exec (.load x) s = .next t ∧ t.status = .halted (.outOfBounds (max s.i.toNat 4096)) ∧
      (∀ r : Reg, r.toNat ≤ x.toNat → s.i.toNat + r.toNat ≤ 4095 →
        State.getV t r = Memory.read s.mem (s.i.toNat + r.toNat)) ∧
      (∀ r : Reg, x.toNat < r.toNat ∨ 4095 < s.i.toNat + r.toNat → State.getV t r = State.getV s r) ∧
      t = { s with v := t.v, status := t.status } ∧ SameMemory s t

/-- Source example S8 (R143, R144): storing V[0] to V[x] and loading them back, whatever the registers hold in between, gives
the stored values, the registers above x keeping what they held. -/
def Obligations.StoreThenLoadRestoresRegisters : Prop :=
  ∀ (x : Reg) (s : State) (between : RegFile), s.i.toNat + x.toNat ≤ 4095 →
    ∃ t u, exec (.store x) s = .next t ∧ exec (.load x) { t with v := between } = .next u ∧
      (∀ r : Reg, r.toNat ≤ x.toNat → State.getV u r = State.getV s r) ∧
      (∀ r : Reg, x.toNat < r.toNat → State.getV u r = RegFile.get between r) ∧ SameMemory t u

/-- R53, R62: two bytes stored by Fx55 are the very next fetch's word, the lower-numbered register as its high byte. -/
def Obligations.StoreIsSeenByNextFetch : Prop :=
  ∀ (x r q : Reg) (s : State), s.i.toNat + x.toNat ≤ 4095 → q.toNat = r.toNat + 1 → q.toNat ≤ x.toNat →
    s.pc.toNat = s.i.toNat + r.toNat →
    ∃ t, exec (.store x) s = .next t ∧ State.fetch t = .ok (State.getV s r ++ State.getV s q)

/-! ### Display (43_display.md) -/

/-- R150 (decisions D6 and D9; log 3, 9): CLS clears every pixel and writes neither VF nor `dirty`, whatever the bits the
decoder ignores. -/
def Obligations.ClearScreenClearsEveryPixel : Prop :=
  ∀ (k : Nibble) (s : State),
    ∃ t, exec (.cls k) s = .next t ∧ (∀ px py, Display.pixel t.disp px py = false) ∧
      t = { s with disp := t.disp } ∧ SameRegsExcept [] s t ∧ SameMemory s t

/-- R151, R152, R153 (decisions D3, D11, D12; log 10, 11): when all sprite bytes exist, or there are none, Dxyn XORs the
sprite onto the display at the coordinates V[x], V[y], dropping what is off it; VF is 1 iff some pixel went from 1 to 0, else
0; `dirty` is set; nothing else changes. -/
def Obligations.DrawXorsSpriteAndReportsCollision : Prop :=
  ∀ (x y : Reg) (n : Nibble) (s : State), n.toNat = 0 ∨ s.i.toNat + n.toNat ≤ 4096 →
    ∃ t, exec (.drw x y n) s = .next t ∧
      (∀ px py, px < 64 → py < 32 → Display.pixel t.disp px py =
        (Display.pixel s.disp px py ^^
          State.spriteBit s (State.getV s x).toNat (State.getV s y).toNat n.toNat px py)) ∧
      (State.getV t 0xF = 1 ↔ ∃ px py, px < 64 ∧ py < 32 ∧ Display.pixel s.disp px py = true ∧
        Display.pixel t.disp px py = false) ∧
      (State.getV t 0xF = 0 ↔ ¬ ∃ px py, px < 64 ∧ py < 32 ∧ Display.pixel s.disp px py = true ∧
        Display.pixel t.disp px py = false) ∧
      t.dirty = true ∧ t = { s with v := t.v, disp := t.disp, dirty := t.dirty } ∧
      SameRegsExcept [0xF] s t ∧ SameMemory s t

/-- R154, R172 c, R177 (decision D13; log 12): with a sprite byte above 4095 Dxyn halts and draws nothing, VF and `dirty`
unchanged. -/
def Obligations.DrawOutOfRangeDrawsNothing : Prop :=
  ∀ (x y : Reg) (n : Nibble) (s : State), 0 < n.toNat → 4096 < s.i.toNat + n.toNat →
    ∃ t, exec (.drw x y n) s = .next t ∧ OnlyHalts (.outOfBounds (max s.i.toNat 4096)) s t

/-- Source example S7 (R151; decisions D3, D11, D12; log 10, 11): drawing the same sprite twice at the same coordinates
restores the display; the second draw sets VF to 1 iff the sprite has a set bit that it changed from 1 to 0, and to 0
otherwise. The registers are put back in between, so that the coordinates are the same also when one of them is VF. R151's
remark on this corner case, that the second draw sets VF to 1 iff the sprite has a set bit on the display, holds only where
those pixels were 0 before the first draw: R151's own operation is followed (log 30). -/
def Obligations.DrawTwiceRestoresDisplay : Prop :=
  ∀ (x y : Reg) (n : Nibble) (s : State), n.toNat = 0 ∨ s.i.toNat + n.toNat ≤ 4096 →
    ∃ t u, exec (.drw x y n) s = .next t ∧ exec (.drw x y n) { t with v := s.v } = .next u ∧ u.disp = s.disp ∧
      (State.getV u 0xF = 1 ↔ ∃ px py, px < 64 ∧ py < 32 ∧ Display.pixel s.disp px py = false ∧
        State.spriteBit s (State.getV s x).toNat (State.getV s y).toNat n.toNat px py = true) ∧
      (State.getV u 0xF = 0 ↔ ¬ ∃ px py, px < 64 ∧ py < 32 ∧ Display.pixel s.disp px py = false ∧
        State.spriteBit s (State.getV s x).toNat (State.getV s y).toNat n.toNat px py = true)

/-! ### Timers and keys (44_timers_keys.md) -/

/-- R160, R162 and R163's operation: the words `Fx07`, `Fx15` and `Fx18` are the transfers between the registers and the
timers. -/
def Obligations.TimerTransfers : Prop :=
  ∀ (x : Reg) (s : State),
    decode (0xF#4 ++ x ++ 0x07#8) = .ok (.ldFromDt x) ∧ decode (0xF#4 ++ x ++ 0x15#8) = .ok (.ldDt x) ∧
    decode (0xF#4 ++ x ++ 0x18#8) = .ok (.ldSt x) ∧
    (∃ t, exec (.ldFromDt x) s = .next t ∧ State.getV t x = s.dt ∧ OnlyRegs [x] s t) ∧
    (∃ t, exec (.ldDt x) s = .next t ∧ t.dt = State.getV s x ∧ t = { s with dt := t.dt } ∧
      SameRegsExcept [] s t ∧ SameMemory s t) ∧
    (∃ t, exec (.ldSt x) s = .next t ∧ t.st = State.getV s x ∧ t = { s with st := t.st } ∧
      SameRegsExcept [] s t ∧ SameMemory s t)

/-- R161, the executing step (decision D17; log 16): the machine waits for a key for register x; the step's own key sample is
not used and nothing else changes. -/
def Obligations.WaitForKeyEntersWaiting : Prop :=
  ∀ (x : Reg) (s : State),
    ∃ t, exec (.ldKey x) s = .next t ∧ t.status = .waitingForKey x ∧ t = { s with status := t.status } ∧
      SameRegsExcept [] s t ∧ SameMemory s t

/-- R164, R165, R166 (decision D16; log 15): the key-conditional skips compare all 8 bits of V[x] with the key sample; with no
key nothing is pressed. Holds for every key sample. -/
def Obligations.KeySkipsCompareAllBits : Prop :=
  ∀ (x : Reg) (s : State),
    (∃ t, exec (.skp x) s = .next t ∧ OnlyPc s t ∧
      ((∃ k, s.inputs.key = some k ∧ k.toNat = (State.getV s x).toNat) → t.pc = s.pc + 2) ∧
      ((¬ ∃ k, s.inputs.key = some k ∧ k.toNat = (State.getV s x).toNat) → t.pc = s.pc)) ∧
    (∃ t, exec (.sknp x) s = .next t ∧ OnlyPc s t ∧
      ((∃ k, s.inputs.key = some k ∧ k.toNat = (State.getV s x).toNat) → t.pc = s.pc) ∧
      ((¬ ∃ k, s.inputs.key = some k ∧ k.toNat = (State.getV s x).toNat) → t.pc = s.pc + 2))

/-! ### Rules about the whole machine -/

/-- Every step keeps the invariant: memory in canonical form, at most 16 stack entries (R30), each at most 4096, and `pc` at
most 0x10FE (R27). -/
def Obligations.StepKeepsInvariant : Prop :=
  ∀ s t : State, State.Inv s → step s = .next t → State.Inv t

/-- R28, R29, R30, R31, R32, R57: which instructions change memory, the index register, the stack, the display, `dirty` and
the timers. That CLS is not among those that change `dirty` is the model's choice (decision D6; log 3). -/
def Obligations.EachPartHasItsWriters : Prop :=
  ∀ (i : Instr) (s t : State), exec i s = .next t →
    ((∃ a, Memory.read t.mem a ≠ Memory.read s.mem a) → ∃ x, i = .store x) ∧
    (t.i ≠ s.i → (∃ nnn, i = .ldI nnn) ∨ (∃ x, i = .addI x) ∨ (∃ x, i = .ldFont x)) ∧
    (t.stack ≠ s.stack → (∃ k, i = .ret k) ∨ (∃ nnn, i = .call nnn)) ∧
    (t.disp ≠ s.disp → (∃ k, i = .cls k) ∨ (∃ x y n, i = .drw x y n)) ∧
    (t.dirty ≠ s.dirty → ∃ x y n, i = .drw x y n) ∧
    (t.dt ≠ s.dt → ∃ x, i = .ldDt x) ∧ (t.st ≠ s.st → ∃ x, i = .ldSt x)

/-- R34: a halted machine stays halted for the same reason; a waiting one goes on waiting or runs, and never halts; waiting
begins only by executing Fx0A in status `Running`. -/
def Obligations.StatusMovesOnlyAsListed : Prop :=
  ∀ s t : State, step s = .next t →
    (∀ r, s.status = .halted r → t.status = .halted r) ∧
    (∀ x, s.status = .waitingForKey x → t.status = .waitingForKey x ∨
      (t.status = .running ∧ ∃ k, s.inputs.key = some k)) ∧
    (∀ x, s.status ≠ .waitingForKey x → t.status = .waitingForKey x →
      s.status = .running ∧ ∃ w, State.fetch s = .ok w ∧ decode w = .ok (.ldKey x))

/-- R172, R173, R174, R179: which instruction can raise which condition, and that an address it reports does not exist. The
other 28 raise none. Which address is reported is the model's choice (decision D20; log 19). -/
def Obligations.EachConditionHasItsRaisers : Prop :=
  ∀ (i : Instr) (s t : State), s.status = .running → exec i s = .next t →
    (t.status = .halted .stackUnderflow → ∃ k, i = .ret k) ∧
    (t.status = .halted .stackOverflow → ∃ nnn, i = .call nnn) ∧
    (∀ a, t.status = .halted (.outOfBounds a) →
      4096 ≤ a ∧ ((∃ x, i = .store x) ∨ (∃ x, i = .load x) ∨ ∃ x y n, i = .drw x y n)) ∧
    (∀ w, t.status ≠ .halted (.unknownOpcode w))

/-- R29, R32: no instruction reads the sound timer or `dirty`, so two machines that differ in nothing else still differ in
nothing else after a step. -/
def Obligations.SoundTimerAndDirtyAreNeverRead : Prop :=
  ∀ s s' t t' : State, EqualButHostFlags s s' → step s = .next t → step s' = .next t' → EqualButHostFlags t t'

/-! ### The host (60_exceptions.md R187) -/

/-- R59, R175, R192 (decision D24; log 21): a program image of at most 3584 bytes is placed at 0x200 and nothing else changes;
a longer one is refused. -/
def Obligations.LoadPlacesImageOrRefuses : Prop :=
  ∀ (image : List Byte) (s : State),
    (3584 < image.length → loadImage image s = .error .loadTooLarge) ∧
    (image.length ≤ 3584 → ∃ t, loadImage image s = .ok t ∧
      (∀ (j : Nat) (h : j < image.length), Memory.read t.mem (0x200 + j) = image[j]) ∧
      (∀ a, a < 0x200 ∨ 0x200 + image.length ≤ a → Memory.read t.mem a = Memory.read s.mem a) ∧
      t = { s with mem := t.mem } ∧ (Memory.wf s.mem → Memory.wf t.mem))

/-- R200, decision D31 (log 31): from a parked state every step leaves the state parked and unchanged, apart from timer ticks
and what else happens between steps. -/
def Obligations.ParkedStateStaysParked : Prop :=
  ∀ (s : State) (nnn : Addr12), State.parked s nnn →
    ∃ t, step s = .next t ∧ State.parked t nnn ∧ SameRegsExcept [] s t ∧ SameMemory s t ∧
      t = { s with dt := t.dt, st := t.st, dirty := t.dirty, inputs := t.inputs, moment := t.moment }
end

