-- ==== Sys2Proof/Laws/Decode.lean ====
section
/-! SUPPORT. The fields of a word built in a format, a word put together again from its fields, and its two bytes. -/

namespace Sys2Proof

variable (op : Nibble) (nnn : Addr12) (x y : Reg) (n : Nibble) (nn : Byte) (w : Word)

/-! ### The fields of a format (30_encoding.md R71, R72) -/

@[simp] theorem op_formatA : Word.op (formatA op nnn) = op := BitVec.extractLsb'_append_eq_left

@[simp] theorem nnn_formatA : Word.nnn (formatA op nnn) = nnn := BitVec.extractLsb'_append_eq_right

@[simp] theorem op_formatX : Word.op (formatX op x nn) = op := by
  unfold Word.op formatX
  rw [BitVec.extractLsb'_append_eq_of_le (by omega)]
  exact BitVec.extractLsb'_append_eq_left

@[simp] theorem x_formatX : Word.x (formatX op x nn) = x := by
  unfold Word.x formatX
  rw [BitVec.extractLsb'_append_eq_of_le (by omega)]
  exact BitVec.extractLsb'_append_eq_right

@[simp] theorem nn_formatX : Word.nn (formatX op x nn) = nn := BitVec.extractLsb'_append_eq_right

@[simp] theorem op_formatXY : Word.op (formatXY op x y n) = op := by
  unfold Word.op formatXY
  rw [BitVec.extractLsb'_append_eq_of_le (by omega), BitVec.extractLsb'_append_eq_of_le (by omega)]
  exact BitVec.extractLsb'_append_eq_left

@[simp] theorem x_formatXY : Word.x (formatXY op x y n) = x := by
  unfold Word.x formatXY
  rw [BitVec.extractLsb'_append_eq_of_le (by omega), BitVec.extractLsb'_append_eq_of_le (by omega)]
  exact BitVec.extractLsb'_append_eq_right

@[simp] theorem y_formatXY : Word.y (formatXY op x y n) = y := by
  unfold Word.y formatXY
  rw [BitVec.extractLsb'_append_eq_of_le (by omega)]
  exact BitVec.extractLsb'_append_eq_right

@[simp] theorem n_formatXY : Word.n (formatXY op x y n) = n := BitVec.extractLsb'_append_eq_right

/-! ### A word from its fields -/

theorem formatA_fields : formatA (Word.op w) (Word.nnn w) = w := BitVec.extractLsb'_append_extractLsb'

theorem formatX_fields : formatX (Word.op w) (Word.x w) (Word.nn w) = w := by
  have h : Word.op w ++ Word.x w = w.extractLsb' 8 8 :=
    BitVec.extractLsb'_append_extractLsb'_eq_extractLsb' (start₁ := 8) (start₂ := 12) (len₁ := 4) (len₂ := 4) rfl
  unfold formatX
  rw [h]
  exact BitVec.extractLsb'_append_extractLsb'

theorem formatXY_fields : formatXY (Word.op w) (Word.x w) (Word.y w) (Word.n w) = w := by
  have h : Word.y w ++ Word.n w = Word.nn w :=
    BitVec.extractLsb'_append_extractLsb'_eq_extractLsb' (start₁ := 0) (start₂ := 4) (len₁ := 4) (len₂ := 4) rfl
  have h' : formatXY (Word.op w) (Word.x w) (Word.y w) (Word.n w) = formatX (Word.op w) (Word.x w) (Word.y w ++ Word.n w) := by
    unfold formatXY formatX
    exact BitVec.append_assoc ..
  rw [h', h]
  exact formatX_fields w

/-! ### Bytes (30_encoding.md R70) -/

@[simp] theorem wordOfBytes_hi_lo : wordOfBytes (Word.hiByte w) (Word.loByte w) = w :=
  BitVec.extractLsb'_append_extractLsb'

@[simp] theorem hiByte_wordOfBytes (hi lo : Byte) : Word.hiByte (wordOfBytes hi lo) = hi :=
  BitVec.extractLsb'_append_eq_left

@[simp] theorem loByte_wordOfBytes (hi lo : Byte) : Word.loByte (wordOfBytes hi lo) = lo :=
  BitVec.extractLsb'_append_eq_right

/-- Decoding two bytes is decoding their word. -/
theorem decodeBytes_cons_cons (hi lo : Byte) (rest : List Byte) :
    decodeBytes (hi :: lo :: rest)
      = match decode (wordOfBytes hi lo) with
        | .ok i => .ok (i, rest)
        | .error e => .error e := rfl

/-- What the host's table word decodes to is what its word decodes to. -/
theorem decodeTableWord_eq (nbits k : Nat) :
    decodeTableWord nbits k = (decode (tableWord nbits k)).toOption := by
  unfold decodeTableWord
  rw [decodeBytes_cons_cons, wordOfBytes_hi_lo]
  cases decode (tableWord nbits k) <;> rfl

/-- A row of the opcode map whose mask is `F000` looks at `op` alone (30_encoding.md R74, R78). -/
theorem and_F000_eq_iff (a : Nibble) : w &&& 0xF000 = formatA a 0 ↔ Word.op w = a := by
  constructor
  · intro h
    rw [← op_formatA a 0, ← h]
    unfold Word.op
    rw [BitVec.extractLsb'_and]
    have : BitVec.extractLsb' 12 4 (0xF000 : Word) = BitVec.allOnes 4 := by decide
    rw [this, BitVec.and_allOnes]
  · rintro rfl
    conv_lhs => rw [← formatA_fields w]
    have h : (0xF000 : Word) = formatA (BitVec.allOnes 4) 0 := by decide
    rw [h]
    unfold formatA
    rw [BitVec.and_append, BitVec.and_allOnes]
    simp

/-- A row whose mask is `F0FF` looks at `op` and `nn` (30_encoding.md R75, R78). -/
theorem and_F0FF_eq_iff (a : Nibble) (b : Byte) :
    w &&& 0xF0FF = formatX a 0 b ↔ Word.op w = a ∧ Word.nn w = b := by
  constructor
  · intro h
    have h1 := op_formatX a 0 b
    have h2 := nn_formatX a 0 b
    rw [← h] at h1 h2
    unfold Word.op at h1 ⊢
    unfold Word.nn at h2 ⊢
    rw [BitVec.extractLsb'_and] at h1 h2
    have e1 : BitVec.extractLsb' 12 4 (0xF0FF : Word) = BitVec.allOnes 4 := by decide
    have e2 : BitVec.extractLsb' 0 8 (0xF0FF : Word) = BitVec.allOnes 8 := by decide
    rw [e1, BitVec.and_allOnes] at h1
    rw [e2, BitVec.and_allOnes] at h2
    exact ⟨h1, h2⟩
  · rintro ⟨rfl, rfl⟩
    conv_lhs => rw [← formatX_fields w]
    have h : (0xF0FF : Word) = formatX (BitVec.allOnes 4) 0 (BitVec.allOnes 8) := by decide
    rw [h]
    unfold formatX
    rw [BitVec.and_append, BitVec.and_append, BitVec.and_allOnes, BitVec.and_allOnes]
    simp

/-- A row whose mask is `F00F` looks at `op` and `n` (30_encoding.md R75, R78). -/
theorem and_F00F_eq_iff (a b : Nibble) :
    w &&& 0xF00F = formatXY a 0 0 b ↔ Word.op w = a ∧ Word.n w = b := by
  constructor
  · intro h
    have h1 := op_formatXY a 0 0 b
    have h2 := n_formatXY a 0 0 b
    rw [← h] at h1 h2
    unfold Word.op at h1 ⊢
    unfold Word.n at h2 ⊢
    rw [BitVec.extractLsb'_and] at h1 h2
    have e1 : BitVec.extractLsb' 12 4 (0xF00F : Word) = BitVec.allOnes 4 := by decide
    have e2 : BitVec.extractLsb' 0 4 (0xF00F : Word) = BitVec.allOnes 4 := by decide
    rw [e1, BitVec.and_allOnes] at h1
    rw [e2, BitVec.and_allOnes] at h2
    exact ⟨h1, h2⟩
  · rintro ⟨rfl, rfl⟩
    conv_lhs => rw [← formatXY_fields w]
    have h : (0xF00F : Word) = formatXY (BitVec.allOnes 4) 0 0 (BitVec.allOnes 4) := by decide
    rw [h]
    unfold formatXY
    rw [BitVec.and_append, BitVec.and_append, BitVec.and_append, BitVec.and_allOnes, BitVec.and_allOnes]
    simp

/-! ### Primary dispatch (30_encoding.md R74): what a word decodes to, by its `op` -/

theorem op_cases : Word.op w = 0x0 ∨ Word.op w = 0x1 ∨ Word.op w = 0x2 ∨ Word.op w = 0x3 ∨ Word.op w = 0x4 ∨ Word.op w = 0x5 ∨ Word.op w = 0x6 ∨ Word.op w = 0x7 ∨ Word.op w = 0x8 ∨
    Word.op w = 0x9 ∨ Word.op w = 0xA ∨ Word.op w = 0xB ∨ Word.op w = 0xC ∨ Word.op w = 0xD ∨ Word.op w = 0xE ∨ Word.op w = 0xF := by
  generalize Word.op w = o
  bv_omega

theorem decode_op0 (h : Word.op w = 0x0) : decode w = decodeFamily0 w := by simp [decode, h]
theorem decode_op1 (h : Word.op w = 0x1) : decode w = .ok (.jp (Word.nnn w)) := by simp [decode, h]
theorem decode_op2 (h : Word.op w = 0x2) : decode w = .ok (.call (Word.nnn w)) := by simp [decode, h]
theorem decode_op3 (h : Word.op w = 0x3) : decode w = .ok (.seImm (Word.x w) (Word.nn w)) := by simp [decode, h]
theorem decode_op4 (h : Word.op w = 0x4) : decode w = .ok (.sneImm (Word.x w) (Word.nn w)) := by simp [decode, h]
theorem decode_op5 (h : Word.op w = 0x5) : decode w = .ok (.seReg (Word.x w) (Word.y w) (Word.n w)) := by simp [decode, h]
theorem decode_op6 (h : Word.op w = 0x6) : decode w = .ok (.ldImm (Word.x w) (Word.nn w)) := by simp [decode, h]
theorem decode_op7 (h : Word.op w = 0x7) : decode w = .ok (.addImm (Word.x w) (Word.nn w)) := by simp [decode, h]
theorem decode_op8 (h : Word.op w = 0x8) : decode w = decodeFamily8 w := by simp [decode, h]
theorem decode_op9 (h : Word.op w = 0x9) : decode w = .ok (.sneReg (Word.x w) (Word.y w) (Word.n w)) := by simp [decode, h]
theorem decode_opA (h : Word.op w = 0xA) : decode w = .ok (.ldI (Word.nnn w)) := by simp [decode, h]
theorem decode_opB (h : Word.op w = 0xB) : decode w = .ok (.jpV0 (Word.nnn w)) := by simp [decode, h]
theorem decode_opC (h : Word.op w = 0xC) : decode w = .ok (.rnd (Word.x w) (Word.nn w)) := by simp [decode, h]
theorem decode_opD (h : Word.op w = 0xD) : decode w = .ok (.drw (Word.x w) (Word.y w) (Word.n w)) := by simp [decode, h]
theorem decode_opE (h : Word.op w = 0xE) : decode w = decodeFamilyE w := by simp [decode, h]
theorem decode_opF (h : Word.op w = 0xF) : decode w = decodeFamilyF w := by simp [decode, h]

end Sys2Proof
end

