-- ==== Sys2Proof/Laws/State.lean ====
section
/-! SUPPORT. One lemma per field per update of the state, so that no later proof unfolds a record update. -/

namespace Sys2Proof.Machine

variable (s : State)

/-! `setV` -/

@[simp] theorem setV_v (r : Reg) (b : Byte) : (State.setV s r b).v = RegFile.set s.v r b := rfl
@[simp] theorem setV_pc (r : Reg) (b : Byte) : (State.setV s r b).pc = s.pc := rfl
@[simp] theorem setV_i (r : Reg) (b : Byte) : (State.setV s r b).i = s.i := rfl
@[simp] theorem setV_dt (r : Reg) (b : Byte) : (State.setV s r b).dt = s.dt := rfl
@[simp] theorem setV_st (r : Reg) (b : Byte) : (State.setV s r b).st = s.st := rfl
@[simp] theorem setV_stack (r : Reg) (b : Byte) : (State.setV s r b).stack = s.stack := rfl
@[simp] theorem setV_mem (r : Reg) (b : Byte) : (State.setV s r b).mem = s.mem := rfl
@[simp] theorem setV_disp (r : Reg) (b : Byte) : (State.setV s r b).disp = s.disp := rfl
@[simp] theorem setV_dirty (r : Reg) (b : Byte) : (State.setV s r b).dirty = s.dirty := rfl
@[simp] theorem setV_status (r : Reg) (b : Byte) : (State.setV s r b).status = s.status := rfl
@[simp] theorem setV_inputs (r : Reg) (b : Byte) : (State.setV s r b).inputs = s.inputs := rfl
@[simp] theorem setV_moment (r : Reg) (b : Byte) : (State.setV s r b).moment = s.moment := rfl

/-! `setFlagAndResult` -/

@[simp] theorem setFlagAndResult_v (f : Byte) (x : Reg) (b : Byte) : (State.setFlagAndResult s f x b).v = RegFile.set (RegFile.set s.v regF f) x b := rfl
@[simp] theorem setFlagAndResult_pc (f : Byte) (x : Reg) (b : Byte) : (State.setFlagAndResult s f x b).pc = s.pc := rfl
@[simp] theorem setFlagAndResult_i (f : Byte) (x : Reg) (b : Byte) : (State.setFlagAndResult s f x b).i = s.i := rfl
@[simp] theorem setFlagAndResult_dt (f : Byte) (x : Reg) (b : Byte) : (State.setFlagAndResult s f x b).dt = s.dt := rfl
@[simp] theorem setFlagAndResult_st (f : Byte) (x : Reg) (b : Byte) : (State.setFlagAndResult s f x b).st = s.st := rfl
@[simp] theorem setFlagAndResult_stack (f : Byte) (x : Reg) (b : Byte) : (State.setFlagAndResult s f x b).stack = s.stack := rfl
@[simp] theorem setFlagAndResult_mem (f : Byte) (x : Reg) (b : Byte) : (State.setFlagAndResult s f x b).mem = s.mem := rfl
@[simp] theorem setFlagAndResult_disp (f : Byte) (x : Reg) (b : Byte) : (State.setFlagAndResult s f x b).disp = s.disp := rfl
@[simp] theorem setFlagAndResult_dirty (f : Byte) (x : Reg) (b : Byte) : (State.setFlagAndResult s f x b).dirty = s.dirty := rfl
@[simp] theorem setFlagAndResult_status (f : Byte) (x : Reg) (b : Byte) : (State.setFlagAndResult s f x b).status = s.status := rfl
@[simp] theorem setFlagAndResult_inputs (f : Byte) (x : Reg) (b : Byte) : (State.setFlagAndResult s f x b).inputs = s.inputs := rfl
@[simp] theorem setFlagAndResult_moment (f : Byte) (x : Reg) (b : Byte) : (State.setFlagAndResult s f x b).moment = s.moment := rfl

/-! `setI` -/

@[simp] theorem setI_v (a : Word) : (State.setI s a).v = s.v := rfl
@[simp] theorem setI_pc (a : Word) : (State.setI s a).pc = s.pc := rfl
@[simp] theorem setI_i (a : Word) : (State.setI s a).i = a := rfl
@[simp] theorem setI_dt (a : Word) : (State.setI s a).dt = s.dt := rfl
@[simp] theorem setI_st (a : Word) : (State.setI s a).st = s.st := rfl
@[simp] theorem setI_stack (a : Word) : (State.setI s a).stack = s.stack := rfl
@[simp] theorem setI_mem (a : Word) : (State.setI s a).mem = s.mem := rfl
@[simp] theorem setI_disp (a : Word) : (State.setI s a).disp = s.disp := rfl
@[simp] theorem setI_dirty (a : Word) : (State.setI s a).dirty = s.dirty := rfl
@[simp] theorem setI_status (a : Word) : (State.setI s a).status = s.status := rfl
@[simp] theorem setI_inputs (a : Word) : (State.setI s a).inputs = s.inputs := rfl
@[simp] theorem setI_moment (a : Word) : (State.setI s a).moment = s.moment := rfl

/-! `setDt` -/

@[simp] theorem setDt_v (b : Byte) : (State.setDt s b).v = s.v := rfl
@[simp] theorem setDt_pc (b : Byte) : (State.setDt s b).pc = s.pc := rfl
@[simp] theorem setDt_i (b : Byte) : (State.setDt s b).i = s.i := rfl
@[simp] theorem setDt_dt (b : Byte) : (State.setDt s b).dt = b := rfl
@[simp] theorem setDt_st (b : Byte) : (State.setDt s b).st = s.st := rfl
@[simp] theorem setDt_stack (b : Byte) : (State.setDt s b).stack = s.stack := rfl
@[simp] theorem setDt_mem (b : Byte) : (State.setDt s b).mem = s.mem := rfl
@[simp] theorem setDt_disp (b : Byte) : (State.setDt s b).disp = s.disp := rfl
@[simp] theorem setDt_dirty (b : Byte) : (State.setDt s b).dirty = s.dirty := rfl
@[simp] theorem setDt_status (b : Byte) : (State.setDt s b).status = s.status := rfl
@[simp] theorem setDt_inputs (b : Byte) : (State.setDt s b).inputs = s.inputs := rfl
@[simp] theorem setDt_moment (b : Byte) : (State.setDt s b).moment = s.moment := rfl

/-! `setSt` -/

@[simp] theorem setSt_v (b : Byte) : (State.setSt s b).v = s.v := rfl
@[simp] theorem setSt_pc (b : Byte) : (State.setSt s b).pc = s.pc := rfl
@[simp] theorem setSt_i (b : Byte) : (State.setSt s b).i = s.i := rfl
@[simp] theorem setSt_dt (b : Byte) : (State.setSt s b).dt = s.dt := rfl
@[simp] theorem setSt_st (b : Byte) : (State.setSt s b).st = b := rfl
@[simp] theorem setSt_stack (b : Byte) : (State.setSt s b).stack = s.stack := rfl
@[simp] theorem setSt_mem (b : Byte) : (State.setSt s b).mem = s.mem := rfl
@[simp] theorem setSt_disp (b : Byte) : (State.setSt s b).disp = s.disp := rfl
@[simp] theorem setSt_dirty (b : Byte) : (State.setSt s b).dirty = s.dirty := rfl
@[simp] theorem setSt_status (b : Byte) : (State.setSt s b).status = s.status := rfl
@[simp] theorem setSt_inputs (b : Byte) : (State.setSt s b).inputs = s.inputs := rfl
@[simp] theorem setSt_moment (b : Byte) : (State.setSt s b).moment = s.moment := rfl

/-! `setPc` -/

@[simp] theorem setPc_v (a : Word) : (State.setPc s a).v = s.v := rfl
@[simp] theorem setPc_pc (a : Word) : (State.setPc s a).pc = a := rfl
@[simp] theorem setPc_i (a : Word) : (State.setPc s a).i = s.i := rfl
@[simp] theorem setPc_dt (a : Word) : (State.setPc s a).dt = s.dt := rfl
@[simp] theorem setPc_st (a : Word) : (State.setPc s a).st = s.st := rfl
@[simp] theorem setPc_stack (a : Word) : (State.setPc s a).stack = s.stack := rfl
@[simp] theorem setPc_mem (a : Word) : (State.setPc s a).mem = s.mem := rfl
@[simp] theorem setPc_disp (a : Word) : (State.setPc s a).disp = s.disp := rfl
@[simp] theorem setPc_dirty (a : Word) : (State.setPc s a).dirty = s.dirty := rfl
@[simp] theorem setPc_status (a : Word) : (State.setPc s a).status = s.status := rfl
@[simp] theorem setPc_inputs (a : Word) : (State.setPc s a).inputs = s.inputs := rfl
@[simp] theorem setPc_moment (a : Word) : (State.setPc s a).moment = s.moment := rfl

/-! `advancePc` -/

@[simp] theorem advancePc_v : (State.advancePc s).v = s.v := rfl
@[simp] theorem advancePc_pc : (State.advancePc s).pc = s.pc + 2 := rfl
@[simp] theorem advancePc_i : (State.advancePc s).i = s.i := rfl
@[simp] theorem advancePc_dt : (State.advancePc s).dt = s.dt := rfl
@[simp] theorem advancePc_st : (State.advancePc s).st = s.st := rfl
@[simp] theorem advancePc_stack : (State.advancePc s).stack = s.stack := rfl
@[simp] theorem advancePc_mem : (State.advancePc s).mem = s.mem := rfl
@[simp] theorem advancePc_disp : (State.advancePc s).disp = s.disp := rfl
@[simp] theorem advancePc_dirty : (State.advancePc s).dirty = s.dirty := rfl
@[simp] theorem advancePc_status : (State.advancePc s).status = s.status := rfl
@[simp] theorem advancePc_inputs : (State.advancePc s).inputs = s.inputs := rfl
@[simp] theorem advancePc_moment : (State.advancePc s).moment = s.moment := rfl

/-! `skipIf` -/

@[simp] theorem skipIf_v (c : Bool) : (State.skipIf s c).v = s.v := rfl
@[simp] theorem skipIf_pc (c : Bool) : (State.skipIf s c).pc = if c then s.pc + 2 else s.pc := rfl
@[simp] theorem skipIf_i (c : Bool) : (State.skipIf s c).i = s.i := rfl
@[simp] theorem skipIf_dt (c : Bool) : (State.skipIf s c).dt = s.dt := rfl
@[simp] theorem skipIf_st (c : Bool) : (State.skipIf s c).st = s.st := rfl
@[simp] theorem skipIf_stack (c : Bool) : (State.skipIf s c).stack = s.stack := rfl
@[simp] theorem skipIf_mem (c : Bool) : (State.skipIf s c).mem = s.mem := rfl
@[simp] theorem skipIf_disp (c : Bool) : (State.skipIf s c).disp = s.disp := rfl
@[simp] theorem skipIf_dirty (c : Bool) : (State.skipIf s c).dirty = s.dirty := rfl
@[simp] theorem skipIf_status (c : Bool) : (State.skipIf s c).status = s.status := rfl
@[simp] theorem skipIf_inputs (c : Bool) : (State.skipIf s c).inputs = s.inputs := rfl
@[simp] theorem skipIf_moment (c : Bool) : (State.skipIf s c).moment = s.moment := rfl

/-! `raise` -/

@[simp] theorem raise_v (r : HaltReason) : (State.raise s r).v = s.v := rfl
@[simp] theorem raise_pc (r : HaltReason) : (State.raise s r).pc = s.pc := rfl
@[simp] theorem raise_i (r : HaltReason) : (State.raise s r).i = s.i := rfl
@[simp] theorem raise_dt (r : HaltReason) : (State.raise s r).dt = s.dt := rfl
@[simp] theorem raise_st (r : HaltReason) : (State.raise s r).st = s.st := rfl
@[simp] theorem raise_stack (r : HaltReason) : (State.raise s r).stack = s.stack := rfl
@[simp] theorem raise_mem (r : HaltReason) : (State.raise s r).mem = s.mem := rfl
@[simp] theorem raise_disp (r : HaltReason) : (State.raise s r).disp = s.disp := rfl
@[simp] theorem raise_dirty (r : HaltReason) : (State.raise s r).dirty = s.dirty := rfl
@[simp] theorem raise_status (r : HaltReason) : (State.raise s r).status = .halted r := rfl
@[simp] theorem raise_inputs (r : HaltReason) : (State.raise s r).inputs = s.inputs := rfl
@[simp] theorem raise_moment (r : HaltReason) : (State.raise s r).moment = s.moment := rfl

/-! `tick` -/

@[simp] theorem tick_v : (State.tick s).v = s.v := rfl
@[simp] theorem tick_pc : (State.tick s).pc = s.pc := rfl
@[simp] theorem tick_i : (State.tick s).i = s.i := rfl
@[simp] theorem tick_dt : (State.tick s).dt = Timer.dec s.dt := rfl
@[simp] theorem tick_st : (State.tick s).st = Timer.dec s.st := rfl
@[simp] theorem tick_stack : (State.tick s).stack = s.stack := rfl
@[simp] theorem tick_mem : (State.tick s).mem = s.mem := rfl
@[simp] theorem tick_disp : (State.tick s).disp = s.disp := rfl
@[simp] theorem tick_dirty : (State.tick s).dirty = s.dirty := rfl
@[simp] theorem tick_status : (State.tick s).status = s.status := rfl
@[simp] theorem tick_inputs : (State.tick s).inputs = s.inputs := rfl
@[simp] theorem tick_moment : (State.tick s).moment = s.moment := rfl

/-! `advanceTimers` -/

@[simp] theorem advanceTimers_v (n : Nat) : (State.advanceTimers s n).v = s.v := rfl
@[simp] theorem advanceTimers_pc (n : Nat) : (State.advanceTimers s n).pc = s.pc := rfl
@[simp] theorem advanceTimers_i (n : Nat) : (State.advanceTimers s n).i = s.i := rfl
@[simp] theorem advanceTimers_dt (n : Nat) : (State.advanceTimers s n).dt = Timer.after n s.dt := rfl
@[simp] theorem advanceTimers_st (n : Nat) : (State.advanceTimers s n).st = Timer.after n s.st := rfl
@[simp] theorem advanceTimers_stack (n : Nat) : (State.advanceTimers s n).stack = s.stack := rfl
@[simp] theorem advanceTimers_mem (n : Nat) : (State.advanceTimers s n).mem = s.mem := rfl
@[simp] theorem advanceTimers_disp (n : Nat) : (State.advanceTimers s n).disp = s.disp := rfl
@[simp] theorem advanceTimers_dirty (n : Nat) : (State.advanceTimers s n).dirty = s.dirty := rfl
@[simp] theorem advanceTimers_status (n : Nat) : (State.advanceTimers s n).status = s.status := rfl
@[simp] theorem advanceTimers_inputs (n : Nat) : (State.advanceTimers s n).inputs = s.inputs := rfl
@[simp] theorem advanceTimers_moment (n : Nat) : (State.advanceTimers s n).moment = s.moment := rfl

/-! `rendererRead` -/

@[simp] theorem rendererRead_v (c : Bool) : (State.rendererRead s c).v = s.v := rfl
@[simp] theorem rendererRead_pc (c : Bool) : (State.rendererRead s c).pc = s.pc := rfl
@[simp] theorem rendererRead_i (c : Bool) : (State.rendererRead s c).i = s.i := rfl
@[simp] theorem rendererRead_dt (c : Bool) : (State.rendererRead s c).dt = s.dt := rfl
@[simp] theorem rendererRead_st (c : Bool) : (State.rendererRead s c).st = s.st := rfl
@[simp] theorem rendererRead_stack (c : Bool) : (State.rendererRead s c).stack = s.stack := rfl
@[simp] theorem rendererRead_mem (c : Bool) : (State.rendererRead s c).mem = s.mem := rfl
@[simp] theorem rendererRead_disp (c : Bool) : (State.rendererRead s c).disp = s.disp := rfl
@[simp] theorem rendererRead_dirty (c : Bool) : (State.rendererRead s c).dirty = (s.dirty && !c) := rfl
@[simp] theorem rendererRead_status (c : Bool) : (State.rendererRead s c).status = s.status := rfl
@[simp] theorem rendererRead_inputs (c : Bool) : (State.rendererRead s c).inputs = s.inputs := rfl
@[simp] theorem rendererRead_moment (c : Bool) : (State.rendererRead s c).moment = s.moment := rfl

/-! `betweenSteps` -/

@[simp] theorem betweenSteps_v : (State.betweenSteps s).v = s.v := rfl
@[simp] theorem betweenSteps_pc : (State.betweenSteps s).pc = s.pc := rfl
@[simp] theorem betweenSteps_i : (State.betweenSteps s).i = s.i := rfl
@[simp] theorem betweenSteps_dt : (State.betweenSteps s).dt = Timer.after s.inputs.ticks s.dt := rfl
@[simp] theorem betweenSteps_st : (State.betweenSteps s).st = Timer.after s.inputs.ticks s.st := rfl
@[simp] theorem betweenSteps_stack : (State.betweenSteps s).stack = s.stack := rfl
@[simp] theorem betweenSteps_mem : (State.betweenSteps s).mem = s.mem := rfl
@[simp] theorem betweenSteps_disp : (State.betweenSteps s).disp = s.disp := rfl
@[simp] theorem betweenSteps_dirty : (State.betweenSteps s).dirty = (s.dirty && !s.inputs.displayRead) := rfl
@[simp] theorem betweenSteps_status : (State.betweenSteps s).status = s.status := rfl
@[simp] theorem betweenSteps_inputs : (State.betweenSteps s).inputs = s.inputs := rfl
@[simp] theorem betweenSteps_moment : (State.betweenSteps s).moment = s.moment := rfl

/-! `nextInputs` -/

@[simp] theorem nextInputs_v : (State.nextInputs s).v = s.v := rfl
@[simp] theorem nextInputs_pc : (State.nextInputs s).pc = s.pc := rfl
@[simp] theorem nextInputs_i : (State.nextInputs s).i = s.i := rfl
@[simp] theorem nextInputs_dt : (State.nextInputs s).dt = s.dt := rfl
@[simp] theorem nextInputs_st : (State.nextInputs s).st = s.st := rfl
@[simp] theorem nextInputs_stack : (State.nextInputs s).stack = s.stack := rfl
@[simp] theorem nextInputs_mem : (State.nextInputs s).mem = s.mem := rfl
@[simp] theorem nextInputs_disp : (State.nextInputs s).disp = s.disp := rfl
@[simp] theorem nextInputs_dirty : (State.nextInputs s).dirty = s.dirty := rfl
@[simp] theorem nextInputs_status : (State.nextInputs s).status = s.status := rfl
@[simp] theorem nextInputs_inputs : (State.nextInputs s).inputs = Config.inputs (s.moment + 1) := rfl
@[simp] theorem nextInputs_moment : (State.nextInputs s).moment = s.moment + 1 := rfl

/-! `placeWord` -/

@[simp] theorem placeWord_v (w : Word) : (State.placeWord s w).v = s.v := rfl
@[simp] theorem placeWord_pc (w : Word) : (State.placeWord s w).pc = s.pc := rfl
@[simp] theorem placeWord_i (w : Word) : (State.placeWord s w).i = s.i := rfl
@[simp] theorem placeWord_dt (w : Word) : (State.placeWord s w).dt = s.dt := rfl
@[simp] theorem placeWord_st (w : Word) : (State.placeWord s w).st = s.st := rfl
@[simp] theorem placeWord_stack (w : Word) : (State.placeWord s w).stack = s.stack := rfl
@[simp] theorem placeWord_mem (w : Word) : (State.placeWord s w).mem = Memory.writeBytes s.mem s.pc.toNat [Word.hiByte w, Word.loByte w] := rfl
@[simp] theorem placeWord_disp (w : Word) : (State.placeWord s w).disp = s.disp := rfl
@[simp] theorem placeWord_dirty (w : Word) : (State.placeWord s w).dirty = s.dirty := rfl
@[simp] theorem placeWord_status (w : Word) : (State.placeWord s w).status = .running := rfl
@[simp] theorem placeWord_inputs (w : Word) : (State.placeWord s w).inputs = s.inputs := rfl
@[simp] theorem placeWord_moment (w : Word) : (State.placeWord s w).moment = s.moment := rfl

end Sys2Proof.Machine
end

