-- ==== Sys2Proof/Laws/Registers.lean ====
section
/-! SUPPORT. The register file: a read after a write, and reads across the updates of other fields. -/

namespace Sys2Proof.Machine

theorem RegFile.get_set (v : RegFile) (x r : Reg) (b : Byte) :
    RegFile.get (RegFile.set v x b) r = if r = x then b else RegFile.get v r := by
  unfold RegFile.get RegFile.set
  rw [Vector.getElem_set]
  by_cases h : r = x
  · simp [h]
  · have : ¬ x.toNat = r.toNat := fun e => h (BitVec.eq_of_toNat_eq e.symm)
    simp [h, this]

/-- Two register files that read the same everywhere are equal. -/
theorem RegFile.ext_get {v w : RegFile} (h : ∀ r, RegFile.get v r = RegFile.get w r) : v = w := by
  apply Vector.ext
  intro i hi
  have hi' : (BitVec.ofNat 4 i).toNat = i := by simp; omega
  have := h (BitVec.ofNat 4 i)
  simpa only [RegFile.get, hi'] using this

/-- Every register reads 0 in the register file of reset. -/
theorem RegFile.get_zeros (r : Reg) : RegFile.get (Vector.replicate 16 0) r = 0 := by
  simp [RegFile.get]

/-- Register number `i` of an ascending block transfer. -/
theorem reg_ofNat_eq_iff {i : Nat} (h : i < 16) (r : Reg) : r = BitVec.ofNat 4 i ↔ r.toNat = i := by
  constructor
  · rintro rfl; simp; omega
  · intro e; apply BitVec.eq_of_toNat_eq; simp; omega

variable (s : State)

theorem getV_setV (x r : Reg) (b : Byte) :
    State.getV (State.setV s x b) r = if r = x then b else State.getV s r := RegFile.get_set ..

@[simp] theorem getV_setV_same (x : Reg) (b : Byte) : State.getV (State.setV s x b) x = b := by simp [getV_setV]

/-- The flag first, the result second: with `x = 0xF` the result survives (10_state.md R22). -/
theorem getV_setFlagAndResult (f b : Byte) (x r : Reg) :
    State.getV (State.setFlagAndResult s f x b) r = if r = x then b else if r = regF then f else State.getV s r := by
  simp [State.setFlagAndResult, getV_setV]

@[simp] theorem getV_setI (a : Word) (r : Reg) : State.getV (State.setI s a) r = State.getV s r := rfl
@[simp] theorem getV_setDt (b : Byte) (r : Reg) : State.getV (State.setDt s b) r = State.getV s r := rfl
@[simp] theorem getV_setSt (b : Byte) (r : Reg) : State.getV (State.setSt s b) r = State.getV s r := rfl
@[simp] theorem getV_setPc (a : Word) (r : Reg) : State.getV (State.setPc s a) r = State.getV s r := rfl
@[simp] theorem getV_advancePc (r : Reg) : State.getV (State.advancePc s) r = State.getV s r := rfl
@[simp] theorem getV_skipIf (c : Bool) (r : Reg) : State.getV (State.skipIf s c) r = State.getV s r := rfl
@[simp] theorem getV_raise (h : HaltReason) (r : Reg) : State.getV (State.raise s h) r = State.getV s r := rfl
@[simp] theorem getV_betweenSteps (r : Reg) : State.getV (State.betweenSteps s) r = State.getV s r := rfl
@[simp] theorem getV_nextInputs (r : Reg) : State.getV (State.nextInputs s) r = State.getV s r := rfl

end Sys2Proof.Machine
end

