-- ==== Sys2Proof/Laws/Memory.lean ====
section
/-! SUPPORT. Memory: a read after a write, the canonical form, and everything the block transfers can do. -/

namespace Sys2Proof.Machine

/-! ### Reading back -/

theorem Memory.read_nil (a : Nat) : Memory.read [] a = Memory.resetByte a := rfl

theorem Memory.read_cons (c : Host.Cell) (m : Memory) (a : Nat) :
    Memory.read (c :: m) a = if a = c.1 then c.2 else Memory.read m a := rfl

theorem Memory.erase_cons (c : Host.Cell) (m : Memory) (a : Nat) :
    Memory.erase (c :: m) a = if c.1 = a then Memory.erase m a else c :: Memory.erase m a := by
  by_cases h : c.1 = a <;> simp [Memory.erase, h]

theorem Memory.read_erase (m : Memory) (a c : Nat) :
    Memory.read (Memory.erase m a) c = if c = a then Memory.resetByte a else Memory.read m c := by
  induction m with
  | nil => by_cases h : c = a <;> simp [Memory.erase, Memory.read_nil, h]
  | cons d m ih =>
    rw [Memory.erase_cons]
    by_cases hd : d.1 = a
    · rw [if_pos hd, ih, Memory.read_cons]
      by_cases hc : c = a
      · simp [hc]
      · have : ¬ c = d.1 := fun e => hc (e.trans hd)
        simp [hc, this]
    · rw [if_neg hd, Memory.read_cons, Memory.read_cons, ih]
      by_cases hc : c = a
      · subst hc
        have : ¬ c = d.1 := fun e => hd e.symm
        simp [this]
      · simp [hc]

theorem Memory.read_insert (m : Memory) (a : Nat) (b : Byte) (c : Nat) (h : ∀ d ∈ m, d.1 ≠ a) :
    Memory.read (Memory.insert m a b) c = if c = a then b else Memory.read m c := by
  induction m with
  | nil => rfl
  | cons d m ih =>
    have hd : d.1 ≠ a := h d (by simp)
    have ih := ih fun e he => h e (by simp [he])
    unfold Memory.insert
    by_cases hlt : a < d.1
    · rw [if_pos hlt, Memory.read_cons]
    · rw [if_neg hlt, Memory.read_cons, Memory.read_cons, ih]
      by_cases hc : c = a
      · subst hc
        have : ¬ c = d.1 := fun e => hd e.symm
        simp [this]
      · simp [hc]

theorem Memory.ne_of_mem_erase {m : Memory} {a : Nat} {d : Host.Cell} (h : d ∈ Memory.erase m a) : d.1 ≠ a := by
  simpa [Memory.erase] using (List.mem_filter.mp h).2

/-- A read after a write: the byte written at its address, everything else as before, in every memory. -/
theorem Memory.read_write (m : Memory) (a : Nat) (b : Byte) (c : Nat) :
    Memory.read (Memory.write m a b) c = if c = a then b else Memory.read m c := by
  unfold Memory.write
  split
  · rename_i h
    rw [Memory.read_erase]
    split
    · exact h.symm
    · rfl
  · rw [Memory.read_insert _ _ _ _ fun _ => Memory.ne_of_mem_erase, Memory.read_erase]
    split <;> rfl

/-! ### The canonical form -/

theorem Memory.wf_nil : Memory.wf [] := by simp [Memory.wf]

theorem Memory.wf_erase {m : Memory} (h : Memory.wf m) (a : Nat) : Memory.wf (Memory.erase m a) :=
  ⟨h.1.filter _, fun c hc => h.2 c (List.mem_of_mem_filter hc)⟩

theorem Memory.mem_insert {m : Memory} {a : Nat} {b : Byte} {d : Host.Cell} (h : d ∈ Memory.insert m a b) :
    d = (a, b) ∨ d ∈ m := by
  induction m with
  | nil => left; simpa [Memory.insert] using h
  | cons e m ih =>
    unfold Memory.insert at h
    split at h
    · simpa using h
    · rcases List.mem_cons.mp h with h | h
      · right; simp [h]
      · rcases ih h with h | h
        · left; exact h
        · right; simp [h]

theorem Memory.rising_insert {m : Memory} (h : m.Pairwise fun c d => c.1 < d.1) (a : Nat) (b : Byte)
    (ha : ∀ d ∈ m, d.1 ≠ a) : (Memory.insert m a b).Pairwise fun c d => c.1 < d.1 := by
  induction m with
  | nil => simp [Memory.insert]
  | cons e m ih =>
    have ⟨he, hm⟩ := List.pairwise_cons.mp h
    have hne : e.1 ≠ a := ha e (by simp)
    unfold Memory.insert
    split
    · rename_i hlt
      refine List.pairwise_cons.mpr ⟨fun d hd => ?_, h⟩
      rcases List.mem_cons.mp hd with rfl | hd
      · exact hlt
      · exact Nat.lt_trans hlt (he d hd)
    · rename_i hge
      refine List.pairwise_cons.mpr ⟨fun d hd => ?_, ih hm fun d hd => ha d (by simp [hd])⟩
      rcases Memory.mem_insert hd with rfl | hd
      · show e.1 < a
        omega
      · exact he d hd

/-- A write of an existing address keeps the canonical form. -/
theorem Memory.wf_write {m : Memory} (h : Memory.wf m) {a : Nat} (ha : a < Config.memSize) (b : Byte) :
    Memory.wf (Memory.write m a b) := by
  unfold Memory.write
  split
  · exact Memory.wf_erase h a
  · rename_i hb
    refine ⟨Memory.rising_insert (Memory.wf_erase h a).1 a b fun _ => Memory.ne_of_mem_erase, fun c hc => ?_⟩
    rcases Memory.mem_insert hc with rfl | hc
    · exact ⟨ha, hb⟩
    · exact (Memory.wf_erase h a).2 c hc

theorem Memory.wf_writeByte {m m' : Memory} (h : Memory.wf m) {a : Nat} {b : Byte}
    (hw : Memory.writeByte m a b = some m') : Memory.wf m' := by
  unfold Memory.writeByte at hw
  split at hw
  · rename_i ha
    exact Option.some.inj hw ▸ Memory.wf_write h ha b
  · cases hw

/-- The host's writes keep the canonical form when all their addresses exist. -/
theorem Memory.wf_writeBytes {m : Memory} (h : Memory.wf m) (a : Nat) (bs : List Byte)
    (ha : a + bs.length ≤ Config.memSize) : Memory.wf (Memory.writeBytes m a bs) := by
  induction bs generalizing m a with
  | nil => exact h
  | cons b bs ih =>
    simp only [List.length_cons] at ha
    exact ih (Memory.wf_write h (by omega) b) (a + 1) (by omega)

/-- What the host's writes leave: the bytes written, everything else as before. -/
theorem Memory.read_writeBytes (m : Memory) (a : Nat) (bs : List Byte) (c : Nat) :
    Memory.read (Memory.writeBytes m a bs) c
      = if h : a ≤ c ∧ c < a + bs.length then bs[c - a]'(by omega) else Memory.read m c := by
  induction bs generalizing m a with
  | nil =>
    rw [dif_neg (by simp only [List.length_nil]; omega)]
    rfl
  | cons b bs ih =>
    simp only [Memory.writeBytes, ih, List.length_cons, Memory.read_write]
    by_cases hc : c = a
    · subst hc
      simp
    · by_cases h1 : a + 1 ≤ c ∧ c < a + 1 + bs.length
      · rw [dif_pos h1, dif_pos (by omega)]
        have : c - a = (c - (a + 1)) + 1 := by omega
        simp [this]
      · rw [dif_neg h1, dif_neg (by omega), if_neg hc]

/-! ### Bounds (20_memory.md R51, R52) -/

theorem Memory.readByte_eq (m : Memory) (a : Nat) :
    Memory.readByte m a = if a < 4096 then some (Memory.read m a) else none := rfl

theorem Memory.writeByte_eq (m : Memory) (a : Nat) (b : Byte) :
    Memory.writeByte m a b = if a < 4096 then some (Memory.write m a b) else none := rfl

theorem Memory.readWord_eq (m : Memory) (a : Nat) :
    Memory.readWord m a
      = if a + 1 < 4096 then .ok (Memory.read m a ++ Memory.read m (a + 1)) else .error (max a 4096) := rfl

theorem State.fetch_eq (s : State) :
    State.fetch s = if s.pc.toNat + 1 < 4096
      then .ok (Memory.read s.mem s.pc.toNat ++ Memory.read s.mem (s.pc.toNat + 1))
      else .error (max s.pc.toNat 4096) := rfl

/-! ### Block transfers (42_index_memory.md R143, R144) -/

/-- Everything a block store can do. With `k` registers from number `i` on: a byte it reaches holds its register's value,
every other byte is as before, and it stops at the first address above 4095 if there is one. -/
theorem Memory.storeRegs_spec (v : RegFile) (base i k : Nat) (m : Memory) :
    (∀ c, Memory.read (Memory.storeRegs v base i k m).1 c
        = if base + i ≤ c ∧ c < base + i + k ∧ c < 4096 then RegFile.get v (BitVec.ofNat 4 (c - base))
          else Memory.read m c)
      ∧ (Memory.storeRegs v base i k m).2
        = if 4096 < base + i + k ∧ 0 < k then some (max (base + i) 4096) else none := by
  induction k generalizing i m with
  | zero =>
    refine ⟨fun c => ?_, ?_⟩
    · rw [if_neg (by omega)]; rfl
    · rw [if_neg (by omega)]; rfl
  | succ k ih =>
    unfold Memory.storeRegs
    rw [Memory.writeByte_eq]
    by_cases hb : base + i < 4096
    · rw [if_pos hb]
      obtain ⟨h1, h2⟩ := ih (i + 1) (Memory.write m (base + i) (RegFile.get v (BitVec.ofNat 4 i)))
      refine ⟨fun c => ?_, ?_⟩
      · simp only [h1, Memory.read_write]
        by_cases hc : c = base + i
        · subst hc
          rw [if_neg (by omega), if_pos rfl, if_pos (by omega)]
          congr 2; omega
        · rw [if_neg hc]
          by_cases hr : base + (i + 1) ≤ c ∧ c < base + (i + 1) + k ∧ c < 4096
          · rw [if_pos hr, if_pos (by omega)]
          · rw [if_neg hr, if_neg (by omega)]
      · simp only [h2]
        by_cases hk : 4096 < base + (i + 1) + k ∧ 0 < k
        · rw [if_pos hk, if_pos (by omega)]; congr 1; omega
        · rw [if_neg hk, if_neg (by omega)]
    · rw [if_neg hb]
      refine ⟨fun c => ?_, ?_⟩
      · rw [if_neg (by omega)]
      · rw [if_pos (by omega)]; simp only; congr 1; omega

/-- A block store keeps the canonical form. -/
theorem Memory.wf_storeRegs (v : RegFile) (base i k : Nat) {m : Memory} (h : Memory.wf m) :
    Memory.wf (Memory.storeRegs v base i k m).1 := by
  induction k generalizing i m with
  | zero => exact h
  | succ k ih =>
    unfold Memory.storeRegs
    split
    · exact h
    · rename_i m' hm
      exact ih (i + 1) (Memory.wf_writeByte h hm)

/-- Everything a block load can do. With `k` registers from number `i` on (`i + k ≤ 16`): a register it reaches holds its
byte, every other register is as before, and it stops at the first address above 4095 if there is one. -/
theorem Memory.loadRegs_spec (m : Memory) (base i k : Nat) (v : RegFile) (hk : i + k ≤ 16) :
    (∀ r : Reg, RegFile.get (Memory.loadRegs m base i k v).1 r
        = if i ≤ r.toNat ∧ r.toNat < i + k ∧ base + r.toNat < 4096 then Memory.read m (base + r.toNat)
          else RegFile.get v r)
      ∧ (Memory.loadRegs m base i k v).2
        = if 4096 < base + i + k ∧ 0 < k then some (max (base + i) 4096) else none := by
  induction k generalizing i v with
  | zero =>
    refine ⟨fun r => ?_, ?_⟩
    · rw [if_neg (by omega)]; rfl
    · rw [if_neg (by omega)]; rfl
  | succ k ih =>
    unfold Memory.loadRegs
    rw [Memory.readByte_eq]
    by_cases hb : base + i < 4096
    · rw [if_pos hb]
      obtain ⟨h1, h2⟩ := ih (i + 1) (RegFile.set v (BitVec.ofNat 4 i) (Memory.read m (base + i))) (by omega)
      refine ⟨fun r => ?_, ?_⟩
      · simp only [h1, RegFile.get_set, reg_ofNat_eq_iff (show i < 16 by omega)]
        by_cases hc : r.toNat = i
        · rw [if_neg (by omega), if_pos hc, if_pos (by omega), hc]
        · rw [if_neg hc]
          by_cases hr : i + 1 ≤ r.toNat ∧ r.toNat < i + 1 + k ∧ base + r.toNat < 4096
          · rw [if_pos hr, if_pos (by omega)]
          · rw [if_neg hr, if_neg (by omega)]
      · simp only [h2]
        by_cases hk : 4096 < base + (i + 1) + k ∧ 0 < k
        · rw [if_pos hk, if_pos (by omega)]; congr 1; omega
        · rw [if_neg hk, if_neg (by omega)]
    · rw [if_neg hb]
      refine ⟨fun r => ?_, ?_⟩
      · rw [if_neg (by omega)]
      · rw [if_pos (by omega)]; simp only; congr 1; omega

/-! ### The state's memory operations keep the canonical form -/

theorem wf_placeWord {s : State} (h : Memory.wf s.mem) (w : Word) (hp : s.pc.toNat + 2 ≤ 4096) :
    Memory.wf (State.placeWord s w).mem := Memory.wf_writeBytes h _ _ hp

theorem Memory.wf_load {m m' : Memory} (h : Memory.wf m) {offset : Nat} {bytes : List Byte}
    (hl : Memory.load m offset bytes = some m') : Memory.wf m' := by
  unfold Memory.load at hl
  split at hl
  · cases hl
  · rename_i hle
    exact Option.some.inj hl ▸ Memory.wf_writeBytes h _ _ (Nat.le_of_not_lt hle)

end Sys2Proof.Machine
end

