-- ==== Sys2Proof/Laws/Display.lean ====
section
/-! SUPPORT. The display: reading pixels back, and everything a sprite draw can do. -/

namespace Sys2Proof.Machine

theorem Display.pixel_off (d : Display) {px py : Nat} (h : ¬ (px < 64 ∧ py < 32)) : Display.pixel d px py = false :=
  dif_neg h

theorem Display.pixel_blank (px py : Nat) : Display.pixel Display.blank px py = false := by
  unfold Display.pixel Display.blank
  split <;> simp

/-- Two displays with the same pixels are equal. -/
theorem Display.ext_pixel {d e : Display}
    (h : ∀ px py, px < 64 → py < 32 → Display.pixel d px py = Display.pixel e px py) : d = e := by
  apply Vector.ext
  intro py hy
  apply Vector.ext
  intro px hx
  simpa only [Display.pixel, hx, hy, and_self, dif_pos] using h px py hx hy

/-- A toggle changes its own pixel, if that is on the display, and no other. -/
theorem Display.pixel_toggle (d : Display) (px py qx qy : Nat) (hq : qx < 64 ∧ qy < 32) :
    Display.pixel (Display.toggle d px py) qx qy
      = (Display.pixel d qx qy ^^ decide (qx = px ∧ qy = py)) := by
  unfold Display.toggle
  by_cases hp : px < 64 ∧ py < 32
  · rw [dif_pos hp]
    unfold Display.pixel
    rw [dif_pos hq, dif_pos hq, Vector.getElem_set]
    by_cases hy : py = qy
    · subst hy
      rw [if_pos rfl, Vector.getElem_set]
      by_cases hx : px = qx
      · subst hx; simp
      · have : ¬ qx = px := fun e => hx e.symm
        simp [hx, this]
    · have : ¬ qy = py := fun e => hy e.symm
      rw [if_neg hy]; simp [this]
  · rw [dif_neg hp]
    have : ¬ (qx = px ∧ qy = py) := fun e => hp (e.1 ▸ e.2 ▸ hq)
    simp [this]

/-- A set bit plotted: its pixel toggled, a collision noted if that pixel was 1; nothing off the display. -/
theorem Canvas.plot_spec (c : Canvas) (px py : Nat) :
    (∀ qx qy, qx < 64 → qy < 32 →
      Display.pixel (Canvas.plot px py c).disp qx qy = (Display.pixel c.disp qx qy ^^ decide (qx = px ∧ qy = py)))
      ∧ (Canvas.plot px py c).hit = (c.hit || Display.pixel c.disp px py) := by
  unfold Canvas.plot
  by_cases hp : px < Config.dispW ∧ py < Config.dispH
  · rw [if_pos hp]
    exact ⟨fun qx qy hx hy => Display.pixel_toggle _ _ _ _ _ ⟨hx, hy⟩, rfl⟩
  · rw [if_neg hp]
    refine ⟨fun qx qy hx hy => ?_, ?_⟩
    · have : ¬ (qx = px ∧ qy = py) := fun e => hp (e.1 ▸ e.2 ▸ ⟨hx, hy⟩)
      simp [this]
    · rw [Display.pixel_off c.disp hp, Bool.or_false]

/-- The bit of a sprite row, drawn from column `vx` on, that falls on column `qx`, among the bits `i .. i+k-1`. -/
def rowBit (row : Byte) (vx i k qx : Nat) : Bool := decide (vx + i ≤ qx ∧ qx < vx + i + k) && row.getLsbD (7 - (qx - vx))

/-- Everything the bits of a sprite row can do: each on-display pixel under a set bit is toggled, and a collision is noted iff
one of them was 1 before. -/
theorem Canvas.drawBits_spec (row : Byte) (vx py i k : Nat) (c : Canvas) :
    (∀ qx qy, qx < 64 → qy < 32 →
      Display.pixel (Canvas.drawBits row vx py i k c).disp qx qy
        = (Display.pixel c.disp qx qy ^^ (decide (qy = py) && rowBit row vx i k qx)))
      ∧ ((Canvas.drawBits row vx py i k c).hit = true
        ↔ c.hit = true ∨ ∃ qx, rowBit row vx i k qx = true ∧ Display.pixel c.disp qx py = true) := by
  induction k generalizing i c with
  | zero =>
    have hno : ∀ qx, rowBit row vx i 0 qx = false := fun qx => by
      unfold rowBit
      rw [decide_eq_false (by omega), Bool.false_and]
    simp [Canvas.drawBits, hno]
  | succ k ih =>
    have hstep : ∀ qx, rowBit row vx i (k + 1) qx
        = ((decide (qx = vx + i) && row.getLsbD (7 - i)) ^^ rowBit row vx (i + 1) k qx) := fun qx => by
      unfold rowBit
      by_cases h : qx = vx + i
      · subst h
        rw [decide_eq_true (show vx + i ≤ vx + i ∧ vx + i < vx + i + (k + 1) by omega),
          decide_eq_false (show ¬ (vx + (i + 1) ≤ vx + i ∧ vx + i < vx + (i + 1) + k) by omega)]
        simp
      · have : (vx + i ≤ qx ∧ qx < vx + i + (k + 1)) ↔ (vx + (i + 1) ≤ qx ∧ qx < vx + (i + 1) + k) := by omega
        simp [h, this]
    unfold Canvas.drawBits
    by_cases hb : row.getLsbD (7 - i) = true
    · rw [if_pos hb]
      obtain ⟨hp, hh⟩ := Canvas.plot_spec c (vx + i) py
      obtain ⟨h1, h2⟩ := ih (i + 1) (Canvas.plot (vx + i) py c)
      refine ⟨fun qx qy hx hy => ?_, ?_⟩
      · rw [h1 qx qy hx hy, hp qx qy hx hy, hstep, hb]
        by_cases hqy : qy = py <;> simp [hqy]
      · rw [h2, hh]
        have hdisj : ∀ qx, rowBit row vx (i + 1) k qx = true → qx ≠ vx + i := fun qx h e => by
          unfold rowBit at h
          simp only [Bool.and_eq_true, decide_eq_true_eq] at h
          omega
        constructor
        · rintro (h | ⟨qx, hr, hpx⟩)
          · rcases Bool.or_eq_true _ _ ▸ h with h | h
            · exact .inl h
            · refine .inr ⟨vx + i, ?_, h⟩
              rw [hstep, hb]
              have : rowBit row vx (i + 1) k (vx + i) = false := by
                cases hr : rowBit row vx (i + 1) k (vx + i) with
                | false => rfl
                | true => exact absurd rfl (hdisj _ hr)
              simp [this]
          · have hne := hdisj qx hr
            by_cases hon : qx < 64 ∧ py < 32
            · refine .inr ⟨qx, ?_, ?_⟩
              · rw [hstep, hr]; simp [hne]
              · rw [hp qx py hon.1 hon.2] at hpx; simpa [hne] using hpx
            · rw [Display.pixel_off _ hon] at hpx; cases hpx
        · rintro (h | ⟨qx, hr, hpx⟩)
          · exact .inl (by simp [h])
          · by_cases hq : qx = vx + i
            · subst hq; exact .inl (by simp [hpx])
            · refine .inr ⟨qx, ?_, ?_⟩
              · rw [hstep] at hr; simpa [hq] using hr
              · by_cases hon : qx < 64 ∧ py < 32
                · rw [hp qx py hon.1 hon.2]; simp [hq, hpx]
                · rw [Display.pixel_off _ hon] at hpx; cases hpx
    · rw [if_neg hb]
      obtain ⟨h1, h2⟩ := ih (i + 1) c
      have hsame : ∀ qx, rowBit row vx i (k + 1) qx = rowBit row vx (i + 1) k qx := fun qx => by
        rw [hstep]; simp [hb]
      simp only [hsame]
      exact ⟨h1, h2⟩

/-- The bit of the sprite rows `rows`, drawn at `(vx, vy)`, that falls on pixel `(qx, qy)`. -/
def rowsBit (rows : List Byte) (vx vy qx qy : Nat) : Bool :=
  decide (vy ≤ qy) && rowBit ((rows[qy - vy]?).getD 0) vx 0 8 qx

theorem rowsBit_nil (vx vy qx qy : Nat) : rowsBit [] vx vy qx qy = false := by simp [rowsBit, rowBit]

theorem rowsBit_cons (row : Byte) (rows : List Byte) (vx vy qx qy : Nat) :
    rowsBit (row :: rows) vx vy qx qy
      = ((decide (qy = vy) && rowBit row vx 0 8 qx) ^^ rowsBit rows vx (vy + 1) qx qy) := by
  unfold rowsBit
  by_cases h : qy = vy
  · subst h
    have : ¬ qy + 1 ≤ qy := by omega
    simp [this]
  · by_cases hlt : vy ≤ qy
    · obtain ⟨d, rfl⟩ : ∃ d, qy = vy + 1 + d := ⟨qy - (vy + 1), by omega⟩
      have e1 : vy + 1 + d - vy = d + 1 := by omega
      have e2 : vy + 1 + d - (vy + 1) = d := by omega
      have e3 : vy ≤ vy + 1 + d := by omega
      simp [h, e1, e2, e3]
    · have : ¬ vy + 1 ≤ qy := by omega
      simp [h, hlt, this]

/-- Everything a sprite draw can do (43_display.md R151): each on-display pixel under a set bit is toggled, and a collision is
noted iff one of them was 1 before. -/
theorem Canvas.drawRows_spec (vx vy : Nat) (rows : List Byte) (c : Canvas) :
    (∀ qx qy, qx < 64 → qy < 32 →
      Display.pixel (Canvas.drawRows vx vy rows c).disp qx qy
        = (Display.pixel c.disp qx qy ^^ rowsBit rows vx vy qx qy))
      ∧ ((Canvas.drawRows vx vy rows c).hit = true
        ↔ c.hit = true ∨ ∃ qx qy, rowsBit rows vx vy qx qy = true ∧ Display.pixel c.disp qx qy = true) := by
  induction rows generalizing vy c with
  | nil => simp [Canvas.drawRows, rowsBit_nil]
  | cons row rows ih =>
    unfold Canvas.drawRows
    obtain ⟨hp, hh⟩ := Canvas.drawBits_spec row vx vy 0 8 c
    obtain ⟨h1, h2⟩ := ih (vy + 1) (Canvas.drawBits row vx vy 0 8 c)
    have hlow : ∀ qx qy, rowsBit rows vx (vy + 1) qx qy = true → qy ≠ vy := fun qx qy h e => by
      have : ¬ vy + 1 ≤ qy := by omega
      simp [rowsBit, this] at h
    refine ⟨fun qx qy hx hy => ?_, ?_⟩
    · rw [h1 qx qy hx hy, hp qx qy hx hy, rowsBit_cons, Bool.xor_assoc]
    · rw [h2, hh]
      constructor
      · rintro ((h | ⟨qx, hr, hpx⟩) | ⟨qx, qy, hr, hpx⟩)
        · exact .inl h
        · refine .inr ⟨qx, vy, ?_, hpx⟩
          have : rowsBit rows vx (vy + 1) qx vy = false := by
            cases hb : rowsBit rows vx (vy + 1) qx vy with
            | false => rfl
            | true => exact absurd rfl (hlow _ _ hb)
          simp [rowsBit_cons, hr, this]
        · have hne := hlow _ _ hr
          by_cases hon : qx < 64 ∧ qy < 32
          · refine .inr ⟨qx, qy, ?_, ?_⟩
            · simp [rowsBit_cons, hne, hr]
            · rw [hp qx qy hon.1 hon.2] at hpx; simpa [hne] using hpx
          · rw [Display.pixel_off _ hon] at hpx; cases hpx
      · rintro (h | ⟨qx, qy, hr, hpx⟩)
        · exact .inl (.inl h)
        · rw [rowsBit_cons] at hr
          by_cases hq : qy = vy
          · subst hq
            have : rowsBit rows vx (qy + 1) qx qy = false := by
              cases hb : rowsBit rows vx (qy + 1) qx qy with
              | false => rfl
              | true => exact absurd rfl (hlow _ _ hb)
            exact .inl (.inr ⟨qx, by simpa [this] using hr, hpx⟩)
          · refine .inr ⟨qx, qy, by simpa [hq] using hr, ?_⟩
            by_cases hon : qx < 64 ∧ qy < 32
            · rw [hp qx qy hon.1 hon.2]; simp [hq, hpx]
            · rw [Display.pixel_off _ hon] at hpx; cases hpx

end Sys2Proof.Machine
end

