-- ==== Sys2Proof/Laws/Ops.lean ====
section
/-! SUPPORT. One lemma per shared operation: everything it can do. Proofs about instructions cite these. -/

namespace Sys2Proof.Machine

variable (s : State)

/-! ### Call stack (10_state.md R30) -/

theorem State.push_spec (a : Word) :
    State.push s a = if s.stack.length < 16 then some { s with stack := a :: s.stack } else none := rfl

theorem State.pop_nil {s : State} (h : s.stack = []) : State.pop s = none := by simp [State.pop, h]

theorem State.pop_cons {s : State} {a : Word} {rest : List Word} (h : s.stack = a :: rest) :
    State.pop s = some (a, { s with stack := rest }) := by simp [State.pop, h]

/-! ### Operands -/

theorem Operand.addr12_toNat (nnn : Addr12) : (Operand.addr12 nnn).toNat = nnn.toNat := by
  simp [Operand.addr12]; omega

theorem Operand.byte16_toNat (b : Byte) : (Operand.byte16 b).toNat = b.toNat := by
  simp [Operand.byte16]; omega

/-- The target of Bnnn is the exact sum (40_control_flow.md R107). -/
theorem Operand.addr12_add_byte16_toNat (nnn : Addr12) (b : Byte) :
    (Operand.addr12 nnn + Operand.byte16 b).toNat = nnn.toNat + b.toNat := by
  rw [BitVec.toNat_add, Operand.addr12_toNat, Operand.byte16_toNat]
  omega

/-- The low nibble of a byte as a number. -/
theorem and_0F_toNat (v : Byte) : (v &&& 0x0F).toNat = v.toNat % 16 := by
  rw [BitVec.toNat_and]
  exact Nat.and_two_pow_sub_one_eq_mod v.toNat 4

/-- The font address is the exact sum, below 0x200 (42_index_memory.md R142). -/
theorem Operand.fontAddr_toNat (v : Byte) :
    (Operand.fontAddr v).toNat = Config.fontBase.val + 5 * (v.toNat % 16) := by
  have := Config.fontBase.isLt
  unfold Operand.fontAddr
  rw [and_0F_toNat, BitVec.toNat_ofNat]
  omega

theorem State.pressed_iff (v : Byte) :
    State.pressed s v = true ↔ ∃ k, s.inputs.key = some k ∧ k.toNat = v.toNat := by
  unfold State.pressed
  cases h : s.inputs.key with
  | none => simp
  | some k =>
    have hk : (k.setWidth 8).toNat = k.toNat := by simp; omega
    rw [beq_iff_eq, ← BitVec.toNat_inj, hk]
    simp

/-- A draw lies in `0..nn` (41_alu.md R131). -/
theorem Operand.draw_le (nn rnd : Byte) : (Operand.draw nn rnd).toNat ≤ nn.toNat := by
  unfold Operand.draw
  rw [BitVec.toNat_ofNat]
  have := Nat.mod_lt rnd.toNat (Nat.succ_pos nn.toNat)
  exact Nat.le_trans (Nat.mod_le _ _) (Nat.lt_succ_iff.mp this)

/-- A random input in `0..nn` is the draw. -/
theorem Operand.draw_of_le {nn rnd : Byte} (h : rnd.toNat ≤ nn.toNat) : Operand.draw nn rnd = rnd := by
  unfold Operand.draw
  rw [Nat.mod_eq_of_lt (by omega)]
  exact BitVec.eq_of_toNat_eq (by simp)

/-! ### Flags (10_state.md R21) -/

theorem Flag.ofBool_eq_one_iff (c : Bool) : Flag.ofBool c = 1 ↔ c = true := by cases c <;> decide

theorem Flag.ofBool_eq_zero_iff (c : Bool) : Flag.ofBool c = 0 ↔ c = false := by cases c <;> decide

/-! ### Timers (60_exceptions.md R182) -/

theorem Timer.dec_toNat (t : Byte) : (Timer.dec t).toNat = t.toNat - 1 := by
  unfold Timer.dec
  split
  · rename_i h; subst h; rfl
  · rename_i h
    have : t.toNat ≠ 0 := fun e => h (BitVec.eq_of_toNat_eq e)
    have h1 : (1 : Byte).toNat = 1 := rfl
    rw [BitVec.toNat_sub, h1]
    omega

/-- Any number of ticks of one timer: subtraction floored at 0. -/
theorem Timer.after_toNat (n : Nat) (t : Byte) : (Timer.after n t).toNat = t.toNat - n := by
  unfold Timer.after
  split
  · rename_i h; subst h; simp
  · rw [BitVec.toNat_ofNat]; omega

/-! ### The display engine (43_display.md R151 to R154) -/

theorem State.spriteBytes_spec (n : Nibble) :
    State.spriteBytes s n
      = if 0 < n.toNat ∧ 4096 < s.i.toNat + n.toNat then none
        else some ((List.range n.toNat).map fun r => Memory.read s.mem (s.i.toNat + r)) := rfl

/-- The bit of the sprite read from memory is `State.spriteBit`. -/
theorem rowsBit_spriteBytes (vx vy n qx qy : Nat) :
    rowsBit ((List.range n).map fun r => Memory.read s.mem (s.i.toNat + r)) vx vy qx qy
      = State.spriteBit s vx vy n qx qy := by
  unfold rowsBit rowBit State.spriteBit
  by_cases h1 : vy ≤ qy
  · by_cases h2 : qy < vy + n
    · have h3 : qy - vy < n := by omega
      have h4 : (vx + 0 ≤ qx ∧ qx < vx + 0 + 8) ↔ (vx ≤ qx ∧ qx < vx + 8) := by omega
      simp [h1, h2, h3]
    · have h3 : ¬ qy - vy < n := by omega
      simp [h2, h3]
  · simp [h1]

/-- Everything the draw of a sprite can do to the display: XOR, and a collision iff an on-display pixel under a set bit was 1. -/
theorem State.drawSprite_spec (vx vy n : Nat) (rows : List Byte)
    (hr : rows = (List.range n).map fun r => Memory.read s.mem (s.i.toNat + r)) :
    (∀ qx qy, qx < 64 → qy < 32 →
      Display.pixel (State.drawSprite s vx vy rows).disp qx qy
        = (Display.pixel s.disp qx qy ^^ State.spriteBit s vx vy n qx qy))
      ∧ (State.getV (State.drawSprite s vx vy rows) 0xF = 1
        ↔ ∃ qx qy, State.spriteBit s vx vy n qx qy = true ∧ Display.pixel s.disp qx qy = true)
      ∧ (State.getV (State.drawSprite s vx vy rows) 0xF = 0
        ↔ ¬ ∃ qx qy, State.spriteBit s vx vy n qx qy = true ∧ Display.pixel s.disp qx qy = true) := by
  subst hr
  obtain ⟨h1, h2⟩ := Canvas.drawRows_spec vx vy ((List.range n).map fun r => Memory.read s.mem (s.i.toNat + r))
    { disp := s.disp, hit := false }
  simp only [rowsBit_spriteBytes] at h1 h2
  have hv : State.getV (State.drawSprite s vx vy ((List.range n).map fun r => Memory.read s.mem (s.i.toNat + r))) 0xF
      = Flag.collision (Canvas.drawRows vx vy ((List.range n).map fun r => Memory.read s.mem (s.i.toNat + r))
          { disp := s.disp, hit := false }).hit := getV_setV_same ..
  refine ⟨h1, ?_, ?_⟩
  · rw [hv, Flag.collision, Flag.ofBool_eq_one_iff, h2]; simp
  · rw [hv, Flag.collision, Flag.ofBool_eq_zero_iff, ← Bool.not_eq_true, h2]; simp

/-- What the draw leaves alone, and that it marks the frame dirty. -/
theorem State.drawSprite_frame (vx vy : Nat) (rows : List Byte) :
    (∀ r, r ≠ 0xF → State.getV (State.drawSprite s vx vy rows) r = State.getV s r)
      ∧ (State.drawSprite s vx vy rows).dirty = true
      ∧ State.drawSprite s vx vy rows
        = { s with v := (State.drawSprite s vx vy rows).v, disp := (State.drawSprite s vx vy rows).disp, dirty := true } := by
  refine ⟨fun r hr => ?_, rfl, rfl⟩
  have : State.getV (State.drawSprite s vx vy rows) r
      = State.getV (State.setV s regF (Flag.collision (Canvas.drawRows vx vy rows { disp := s.disp, hit := false }).hit)) r := rfl
  rw [this, getV_setV, if_neg (by simpa [regF] using hr)]

/-! ### Block transfers as instructions (42_index_memory.md R143, R144) -/

/-- Everything Fx55 can do, the memory as `Memory.storeRegs_spec` says. -/
theorem execStore_spec (x : Reg) :
    execStore x s
      = let m := (Memory.storeRegs s.v s.i.toNat 0 (x.toNat + 1) s.mem).1
        if s.i.toNat + x.toNat < 4096 then .next { s with mem := m }
        else .next (State.raise { s with mem := m } (.outOfBounds (max s.i.toNat 4096))) := by
  have h := (Memory.storeRegs_spec s.v s.i.toNat 0 (x.toNat + 1) s.mem).2
  unfold execStore halt
  show (match Memory.storeRegs s.v s.i.toNat 0 (x.toNat + 1) s.mem with
    | (m, none) => _ | (m, some a) => _) = _
  generalize Memory.storeRegs s.v s.i.toNat 0 (x.toNat + 1) s.mem = p at h
  obtain ⟨m, f⟩ := p
  simp only at h
  by_cases hb : s.i.toNat + x.toNat < 4096
  · rw [if_neg (by omega)] at h
    subst h; simp [hb]
  · rw [if_pos (by omega)] at h
    subst h; simp [hb]

/-- Everything Fx65 can do, the registers as `Memory.loadRegs_spec` says. -/
theorem execLoad_spec (x : Reg) :
    execLoad x s
      = let v := (Memory.loadRegs s.mem s.i.toNat 0 (x.toNat + 1) s.v).1
        if s.i.toNat + x.toNat < 4096 then .next { s with v := v }
        else .next (State.raise { s with v := v } (.outOfBounds (max s.i.toNat 4096))) := by
  have h := (Memory.loadRegs_spec s.mem s.i.toNat 0 (x.toNat + 1) s.v (by omega)).2
  unfold execLoad halt
  show (match Memory.loadRegs s.mem s.i.toNat 0 (x.toNat + 1) s.v with
    | (v, none) => _ | (v, some a) => _) = _
  generalize Memory.loadRegs s.mem s.i.toNat 0 (x.toNat + 1) s.v = p at h
  obtain ⟨v, f⟩ := p
  simp only at h
  by_cases hb : s.i.toNat + x.toNat < 4096
  · rw [if_neg (by omega)] at h
    subst h; simp [hb]
  · rw [if_pos (by omega)] at h
    subst h; simp [hb]

/-! ### The step (30_encoding.md R73) -/

/-- No instruction ends in a fault or a refusal: whatever it meets is a next state. -/
theorem exec_next (i : Instr) : ∃ t, exec i s = .next t := by
  cases i with
  | ret k => simp only [exec, execRet, halt]; split <;> exact ⟨_, rfl⟩
  | call nnn => simp only [exec, execCall, halt]; split <;> exact ⟨_, rfl⟩
  | store x => simp only [exec, execStore, halt]; split <;> exact ⟨_, rfl⟩
  | load x => simp only [exec, execLoad, halt]; split <;> exact ⟨_, rfl⟩
  | drw x y n => simp only [exec, execDrw, halt]; split <;> exact ⟨_, rfl⟩
  | _ => exact ⟨_, rfl⟩

/-- Everything a step can do, by status and by how far the cycle gets. -/
theorem step_cases {s t : State} (h : step s = .next t) :
    (∃ r, s.status = .halted r ∧ t = s)
      ∨ (∃ x, s.status = .waitingForKey x ∧ t = State.nextInputs (State.sampleKey (State.betweenSteps s) x))
      ∨ (s.status = .running ∧ ∃ a, State.fetch s = .error a
        ∧ t = State.nextInputs (State.raise (State.betweenSteps s) (.outOfBounds a)))
      ∨ (s.status = .running ∧ ∃ w e, State.fetch s = .ok w ∧ decode w = .error e
        ∧ t = State.nextInputs (State.raise (State.advancePc (State.betweenSteps s)) (.unknownOpcode w)))
      ∨ (s.status = .running ∧ ∃ w i u, State.fetch s = .ok w ∧ decode w = .ok i
        ∧ exec i (State.advancePc (State.betweenSteps s)) = .next u ∧ t = State.nextInputs u) := by
  unfold step cycle at h
  split at h
  · rename_i r hs
    injection h with h
    exact .inl ⟨r, hs, h.symm⟩
  · rename_i x hs
    injection h with h
    exact .inr (.inl ⟨x, hs, h.symm⟩)
  · rename_i hs
    have hf : State.fetch (State.betweenSteps s) = State.fetch s := rfl
    unfold runCycle at h
    rw [hf] at h
    cases hw : State.fetch s with
    | error a =>
      simp only [hw] at h
      injection h with h
      exact .inr (.inr (.inl ⟨hs, a, rfl, h.symm⟩))
    | ok w =>
      simp only [hw] at h
      unfold runWord at h
      cases hd : decode w with
      | error e =>
        simp only [hd] at h
        injection h with h
        exact .inr (.inr (.inr (.inl ⟨hs, w, e, rfl, hd, h.symm⟩)))
      | ok i =>
        simp only [hd] at h
        obtain ⟨u, hu⟩ := exec_next (State.advancePc (State.betweenSteps s)) i
        rw [hu] at h
        injection h with h
        exact .inr (.inr (.inr (.inr ⟨hs, w, i, u, rfl, hd, hu, h.symm⟩)))

/-- The waiting step (44_timers_keys.md R161). -/
theorem State.sampleKey_none {s : State} (h : s.inputs.key = none) (x : Reg) : State.sampleKey s x = s := by
  simp [State.sampleKey, h]

theorem State.sampleKey_some {s : State} {k : Nibble} (h : s.inputs.key = some k) (x : Reg) :
    State.sampleKey s x = { State.setV s x (k.setWidth 8) with status := .running } := by
  simp [State.sampleKey, h]

end Sys2Proof.Machine
end

