-- ==== Sys2Proof/Laws/PerInstr.lean ====
section
/-! SUPPORT. Statements about every instruction as syntax, one lemma per constructor.

`RowMatch`: the instruction's own word passes the mask and pattern of its row of the opcode map (30_encoding.md R78). -/

/-- The encoding of `i` is accepted by the row of `i` (R78). -/
def Sys2Proof.Laws.RowMatch.Statement (i : Sys2Proof.Instr) : Prop :=
  Sys2Proof.OpcodeRow.accepts (Sys2Proof.Instr.row i) (Sys2Proof.encode i) = true

namespace Sys2Proof.Laws

open Sys2Proof

/-- Rows with mask `F000`. -/
theorem rowMatch_F000 {w : Word} {a : Nibble} (h : Word.op w = a) :
    OpcodeRow.accepts ⟨0xF000, formatA a 0⟩ w = true := beq_iff_eq.mpr ((and_F000_eq_iff w a).mpr h)

/-- Rows with mask `F0FF`. -/
theorem rowMatch_F0FF {w : Word} {a : Nibble} {b : Byte} (h : Word.op w = a) (h' : Word.nn w = b) :
    OpcodeRow.accepts ⟨0xF0FF, formatX a 0 b⟩ w = true := beq_iff_eq.mpr ((and_F0FF_eq_iff w a b).mpr ⟨h, h'⟩)

/-- Rows with mask `F00F`. -/
theorem rowMatch_F00F {w : Word} {a b : Nibble} (h : Word.op w = a) (h' : Word.n w = b) :
    OpcodeRow.accepts ⟨0xF00F, formatXY a 0 0 b⟩ w = true := beq_iff_eq.mpr ((and_F00F_eq_iff w a b).mpr ⟨h, h'⟩)

theorem RowMatch.cls (k : Nibble) : RowMatch.Statement (.cls k) := rowMatch_F0FF (op_formatX ..) (nn_formatX ..)
theorem RowMatch.ret (k : Nibble) : RowMatch.Statement (.ret k) := rowMatch_F0FF (op_formatX ..) (nn_formatX ..)
theorem RowMatch.jp (nnn : Addr12) : RowMatch.Statement (.jp nnn) := rowMatch_F000 (op_formatA ..)
theorem RowMatch.call (nnn : Addr12) : RowMatch.Statement (.call nnn) := rowMatch_F000 (op_formatA ..)
theorem RowMatch.seImm (x : Reg) (nn : Byte) : RowMatch.Statement (.seImm x nn) := rowMatch_F000 (op_formatX ..)
theorem RowMatch.sneImm (x : Reg) (nn : Byte) : RowMatch.Statement (.sneImm x nn) := rowMatch_F000 (op_formatX ..)
theorem RowMatch.seReg (x y : Reg) (k : Nibble) : RowMatch.Statement (.seReg x y k) := rowMatch_F000 (op_formatXY ..)
theorem RowMatch.ldImm (x : Reg) (nn : Byte) : RowMatch.Statement (.ldImm x nn) := rowMatch_F000 (op_formatX ..)
theorem RowMatch.addImm (x : Reg) (nn : Byte) : RowMatch.Statement (.addImm x nn) := rowMatch_F000 (op_formatX ..)
theorem RowMatch.ldReg (x y : Reg) : RowMatch.Statement (.ldReg x y) := rowMatch_F00F (op_formatXY ..) (n_formatXY ..)
theorem RowMatch.orReg (x y : Reg) : RowMatch.Statement (.orReg x y) := rowMatch_F00F (op_formatXY ..) (n_formatXY ..)
theorem RowMatch.andReg (x y : Reg) : RowMatch.Statement (.andReg x y) := rowMatch_F00F (op_formatXY ..) (n_formatXY ..)
theorem RowMatch.xorReg (x y : Reg) : RowMatch.Statement (.xorReg x y) := rowMatch_F00F (op_formatXY ..) (n_formatXY ..)
theorem RowMatch.addReg (x y : Reg) : RowMatch.Statement (.addReg x y) := rowMatch_F00F (op_formatXY ..) (n_formatXY ..)
theorem RowMatch.sub (x y : Reg) : RowMatch.Statement (.sub x y) := rowMatch_F00F (op_formatXY ..) (n_formatXY ..)
theorem RowMatch.shr (x y : Reg) : RowMatch.Statement (.shr x y) := rowMatch_F00F (op_formatXY ..) (n_formatXY ..)
theorem RowMatch.subn (x y : Reg) : RowMatch.Statement (.subn x y) := rowMatch_F00F (op_formatXY ..) (n_formatXY ..)
theorem RowMatch.shl (x y : Reg) : RowMatch.Statement (.shl x y) := rowMatch_F00F (op_formatXY ..) (n_formatXY ..)
theorem RowMatch.sneReg (x y : Reg) (k : Nibble) : RowMatch.Statement (.sneReg x y k) := rowMatch_F000 (op_formatXY ..)
theorem RowMatch.ldI (nnn : Addr12) : RowMatch.Statement (.ldI nnn) := rowMatch_F000 (op_formatA ..)
theorem RowMatch.jpV0 (nnn : Addr12) : RowMatch.Statement (.jpV0 nnn) := rowMatch_F000 (op_formatA ..)
theorem RowMatch.rnd (x : Reg) (nn : Byte) : RowMatch.Statement (.rnd x nn) := rowMatch_F000 (op_formatX ..)
theorem RowMatch.drw (x y : Reg) (n : Nibble) : RowMatch.Statement (.drw x y n) := rowMatch_F000 (op_formatXY ..)
theorem RowMatch.addI (x : Reg) : RowMatch.Statement (.addI x) := rowMatch_F0FF (op_formatX ..) (nn_formatX ..)
theorem RowMatch.ldFont (x : Reg) : RowMatch.Statement (.ldFont x) := rowMatch_F0FF (op_formatX ..) (nn_formatX ..)
theorem RowMatch.store (x : Reg) : RowMatch.Statement (.store x) := rowMatch_F0FF (op_formatX ..) (nn_formatX ..)
theorem RowMatch.load (x : Reg) : RowMatch.Statement (.load x) := rowMatch_F0FF (op_formatX ..) (nn_formatX ..)
theorem RowMatch.ldKey (x : Reg) : RowMatch.Statement (.ldKey x) := rowMatch_F0FF (op_formatX ..) (nn_formatX ..)
theorem RowMatch.ldFromDt (x : Reg) : RowMatch.Statement (.ldFromDt x) := rowMatch_F0FF (op_formatX ..) (nn_formatX ..)
theorem RowMatch.ldDt (x : Reg) : RowMatch.Statement (.ldDt x) := rowMatch_F0FF (op_formatX ..) (nn_formatX ..)
theorem RowMatch.ldSt (x : Reg) : RowMatch.Statement (.ldSt x) := rowMatch_F0FF (op_formatX ..) (nn_formatX ..)
theorem RowMatch.sknp (x : Reg) : RowMatch.Statement (.sknp x) := rowMatch_F0FF (op_formatX ..) (nn_formatX ..)
theorem RowMatch.skp (x : Reg) : RowMatch.Statement (.skp x) := rowMatch_F0FF (op_formatX ..) (nn_formatX ..)

end Sys2Proof.Laws
end

