-- ==== Sys2Proof/Tests/Slice0.lean ====
section
/-!
SUPPORT. Tests of single instructions and steps, and witnesses that the hypotheses of the statements can be met.

Every expected result is taken from spec/95_test_vectors.md (the vector's name stands at the test) or computed by hand from the
rule cited.
-/

namespace Sys2Proof.Tests

open Sys2Proof Sys2Proof.Machine

/-! ### Helpers -/

/-- The state the vectors start from: reset, no key, no ticks, no display read. -/
def start : State := { State.reset with pc := 0x202, inputs := { key := none, rnd := 0, ticks := 0, displayRead := false } }

/-- `start` with some registers set. -/
def withRegs : List (Reg × Byte) → State
  | [] => start
  | (r, b) :: rest => State.setV (withRegs rest) r b

/-- What an instruction leaves, seen through a function of the state; `none` if it does not answer a next state. -/
def after {α : Type} (i : Instr) (s : State) (f : State → α) : Option α :=
  match exec i s with
  | .next t => some (f t)
  | _ => none

/-- What a step leaves, seen through a function of the state. -/
def afterStep {α : Type} (s : State) (f : State → α) : Option α :=
  match step s with
  | .next t => some (f t)
  | _ => none

/-! ### Well-formedness: an ill-formed term for each check -/

theorem test_wf_cls : Instr.wellFormed (.cls 1) = false := by decide
theorem test_wf_ret : Instr.wellFormed (.ret 3) = false := by decide
theorem test_wf_seReg : Instr.wellFormed (.seReg 1 2 7) = false := by decide
theorem test_wf_sneReg : Instr.wellFormed (.sneReg 1 2 0xF) = false := by decide
theorem test_wf_accepts : Instr.wellFormed (.seReg 1 2 0) = true := by decide

/-! ### Decoding: a word of every row, written out from R71, R72, R78 (R79 for the second and seventh) -/

theorem test_decode_cls : decode 0b0000000011100000 = .ok (.cls 0) := by decide
theorem test_decode_ret : decode 0b0000111111101110 = .ok (.ret 0xF) := by decide
theorem test_decode_jp : decode 0b0001001000000100 = .ok (.jp 0x204) := by decide
theorem test_decode_call : decode 0b0010001100000000 = .ok (.call 0x300) := by decide
theorem test_decode_seImm : decode 0b0011101001000010 = .ok (.seImm 0xA 0x42) := by decide
theorem test_decode_sneImm : decode 0b0100101001000010 = .ok (.sneImm 0xA 0x42) := by decide
theorem test_decode_seReg : decode 0b0101101010111111 = .ok (.seReg 0xA 0xB 0xF) := by decide
theorem test_decode_ldImm : decode 0b0110000000000101 = .ok (.ldImm 0 5) := by decide
theorem test_decode_addImm : decode 0b0111001111111111 = .ok (.addImm 3 0xFF) := by decide
theorem test_decode_ldReg : decode 0b1000000100100000 = .ok (.ldReg 1 2) := by decide
theorem test_decode_orReg : decode 0b1000000100100001 = .ok (.orReg 1 2) := by decide
theorem test_decode_andReg : decode 0b1000000100100010 = .ok (.andReg 1 2) := by decide
theorem test_decode_xorReg : decode 0b1000000100100011 = .ok (.xorReg 1 2) := by decide
theorem test_decode_addReg : decode 0b1000000100100100 = .ok (.addReg 1 2) := by decide
theorem test_decode_sub : decode 0b1000000100100101 = .ok (.sub 1 2) := by decide
theorem test_decode_shr : decode 0b1000000100100110 = .ok (.shr 1 2) := by decide
theorem test_decode_subn : decode 0b1000000100100111 = .ok (.subn 1 2) := by decide
theorem test_decode_shl : decode 0b1000101010111110 = .ok (.shl 0xA 0xB) := by decide
theorem test_decode_sneReg : decode 0b1001101010110000 = .ok (.sneReg 0xA 0xB 0) := by decide
theorem test_decode_ldI : decode 0b1010001100000000 = .ok (.ldI 0x300) := by decide
theorem test_decode_jpV0 : decode 0b1011111111111111 = .ok (.jpV0 0xFFF) := by decide
theorem test_decode_rnd : decode 0b1100101001111111 = .ok (.rnd 0xA 0x7F) := by decide
theorem test_decode_drw : decode 0b1101101010111100 = .ok (.drw 0xA 0xB 12) := by decide
theorem test_decode_addI : decode 0b1111101000011110 = .ok (.addI 0xA) := by decide
theorem test_decode_ldFont : decode 0b1111101000101001 = .ok (.ldFont 0xA) := by decide
theorem test_decode_store : decode 0b1111101001010101 = .ok (.store 0xA) := by decide
theorem test_decode_load : decode 0b1111101001100101 = .ok (.load 0xA) := by decide
theorem test_decode_ldKey : decode 0b1111101000001010 = .ok (.ldKey 0xA) := by decide
theorem test_decode_ldFromDt : decode 0b1111101000000111 = .ok (.ldFromDt 0xA) := by decide
theorem test_decode_ldDt : decode 0b1111101000010101 = .ok (.ldDt 0xA) := by decide
theorem test_decode_ldSt : decode 0b1111101000011000 = .ok (.ldSt 0xA) := by decide
theorem test_decode_sknp : decode 0b1110101010100001 = .ok (.sknp 0xA) := by decide
theorem test_decode_skp : decode 0b1110101010011110 = .ok (.skp 0xA) := by decide

/-- E1, E6, E9, E11, S11: words that are no instruction. -/
theorem test_decode_unknown :
    [0x0000, 0x00E1, 0x0123, 0x00FF, 0x8AB8, 0xEA9F, 0xFA33, 0xE000].all
      (fun w => decode w == .error (.unknownOpcode w)) = true := by decide

/-- S15: the byte at the lower address is the high byte. -/
theorem test_decode_bytes : decodeBytes [0x60, 0x05, 0x70] = .ok (.ldImm 0 5, [0x70]) := by decide

theorem test_decode_truncated : decodeBytes [0x60] = .error .truncated := by decide

theorem test_encode : encode (.drw 0xA 0xB 12) = 0xDABC ∧ encode (.shl 0xA 0xB) = 0x8ABE ∧ encode (.jp 0x204) = 0x1204 := by
  decide

theorem test_table_word : decodeTableWord 16 0xFA55 = some (.store 0xA) := by decide

/-! ### Control transfer -/

/-- T2. -/
theorem test_jp_odd : after (.jp 0x201) start (·.pc) = some 0x201 := by decide
/-- T5. -/
theorem test_call : after (.call 0x300) start (fun t => (t.pc, t.stack)) = some (0x300, [0x202]) := by decide
/-- T6. -/
theorem test_call_full :
    after (.call 0x300) { start with stack := List.replicate 16 0x202 } (fun t => (t.pc, t.stack.length, t.status))
      = some (0x202, 16, .halted .stackOverflow) := by decide
/-- T7, the stack written newest first. -/
theorem test_ret : after (.ret 0) { start with stack := [0x30A, 0x208] } (fun t => (t.pc, t.stack)) = some (0x30A, [0x208]) := by
  decide
/-- T8. -/
theorem test_ret_empty : after (.ret 0) start (fun t => (t.pc, t.status)) = some (0x202, .halted .stackUnderflow) := by decide
/-- T10, T11. -/
theorem test_seImm :
    after (.seImm 0xA 0x42) (withRegs [(0xA, 0x42)]) (·.pc) = some 0x204 ∧
    after (.seImm 0xA 0x42) (withRegs [(0xA, 0x43)]) (·.pc) = some 0x202 := by decide
/-- T12, T13. -/
theorem test_sneImm :
    after (.sneImm 0xA 0x42) (withRegs [(0xA, 0x42)]) (·.pc) = some 0x202 ∧
    after (.sneImm 0xA 0x42) (withRegs [(0xA, 0x43)]) (·.pc) = some 0x204 := by decide
/-- T14, T15. -/
theorem test_seReg :
    after (.seReg 1 2 0) (withRegs [(1, 7), (2, 7)]) (·.pc) = some 0x204 ∧
    after (.seReg 1 2 0) (withRegs [(1, 7), (2, 8)]) (·.pc) = some 0x202 := by decide
/-- T18, T20. -/
theorem test_sneReg :
    after (.sneReg 1 2 0) (withRegs [(1, 7), (2, 8)]) (·.pc) = some 0x204 ∧
    after (.sneReg 3 3 0) start (·.pc) = some 0x202 := by decide
/-- T22, T23. -/
theorem test_jpV0 :
    after (.jpV0 0xFFF) (withRegs [(0, 0xFF)]) (·.pc) = some 0x10FE ∧
    after (.jpV0 0x300) (withRegs [(3, 0x55)]) (·.pc) = some 0x300 := by decide

/-! ### Register load, arithmetic, logic, shift, random -/

/-- A2. -/
theorem test_ldImm : after (.ldImm 0xF 0xAA) (withRegs [(0xF, 1)]) (State.getV · 0xF) = some 0xAA := by decide
/-- A3, A5. -/
theorem test_addImm :
    after (.addImm 3 1) (withRegs [(3, 0xFF), (0xF, 0x55)]) (fun t => (State.getV t 3, State.getV t 0xF)) = some (0, 0x55) ∧
    after (.addImm 0xF 1) (withRegs [(0xF, 0xFF)]) (State.getV · 0xF) = some 0 := by decide
/-- A6. -/
theorem test_ldReg :
    after (.ldReg 1 2) (withRegs [(2, 0x7E)]) (fun t => (State.getV t 1, State.getV t 2)) = some (0x7E, 0x7E) := by decide
/-- A7. -/
theorem test_orReg :
    after (.orReg 0 1) (withRegs [(0, 0xF0), (1, 0x0F), (0xF, 0x55)]) (fun t => (State.getV t 0, State.getV t 0xF))
      = some (0xFF, 0x55) := by decide
/-- A8. -/
theorem test_andReg :
    after (.andReg 0 1) (withRegs [(0, 0xF0), (1, 0x3C), (0xF, 0x55)]) (fun t => (State.getV t 0, State.getV t 0xF))
      = some (0x30, 0x55) := by decide
/-- A9. -/
theorem test_xorReg :
    after (.xorReg 0 1) (withRegs [(0, 0xF0), (1, 0x3C), (0xF, 0x55)]) (fun t => (State.getV t 0, State.getV t 0xF))
      = some (0xCC, 0x55) := by decide
/-- A11, A16. -/
theorem test_addReg :
    after (.addReg 0 1) (withRegs [(0, 0xFF), (1, 1)]) (fun t => (State.getV t 0, State.getV t 0xF)) = some (0, 1) ∧
    after (.addReg 0xF 1) (withRegs [(0xF, 0xF0), (1, 0x20)]) (State.getV · 0xF) = some 0x10 := by decide
/-- A17: the old VF is the addend. -/
theorem test_addReg_latch :
    after (.addReg 0 0xF) (withRegs [(0, 0xFF), (0xF, 1)]) (fun t => (State.getV t 0, State.getV t 0xF)) = some (0, 1) := by decide
/-- A20, A21: equal operands give flag 0. -/
theorem test_sub :
    after (.sub 0 1) (withRegs [(0, 3), (1, 5)]) (fun t => (State.getV t 0, State.getV t 0xF)) = some (0xFE, 0) ∧
    after (.sub 0 1) (withRegs [(0, 5), (1, 5)]) (fun t => (State.getV t 0, State.getV t 0xF)) = some (0, 0) := by decide
/-- A24. -/
theorem test_sub_latch :
    after (.sub 0 0xF) (withRegs [(0, 9), (0xF, 1)]) (fun t => (State.getV t 0, State.getV t 0xF)) = some (8, 1) := by decide
/-- A30, A31. -/
theorem test_subn :
    after (.subn 0 1) (withRegs [(0, 3), (1, 5)]) (fun t => (State.getV t 0, State.getV t 0xF)) = some (2, 1) ∧
    after (.subn 0 1) (withRegs [(0, 5), (1, 3)]) (fun t => (State.getV t 0, State.getV t 0xF)) = some (0xFE, 0) := by decide
/-- A25, A29: the source is V[y]; with `y = 0xF` the old VF. -/
theorem test_shr :
    after (.shr 1 2) (withRegs [(1, 0xEE), (2, 5)]) (fun t => (State.getV t 1, State.getV t 2, State.getV t 0xF))
      = some (2, 5, 1) ∧
    after (.shr 1 0xF) (withRegs [(0xF, 3)]) (fun t => (State.getV t 1, State.getV t 0xF)) = some (1, 1) := by decide
/-- A33, A36. -/
theorem test_shl :
    after (.shl 1 2) (withRegs [(1, 0xEE), (2, 0x81)]) (fun t => (State.getV t 1, State.getV t 2, State.getV t 0xF))
      = some (2, 0x81, 1) ∧
    after (.shl 0xF 2) (withRegs [(2, 0xC0)]) (State.getV · 0xF) = some 0x80 := by decide
/-- A38, A40. -/
theorem test_rnd :
    after (.rnd 0 0xF0) { start with inputs := { start.inputs with rnd := 0x3C } } (State.getV · 0) = some 0x30 ∧
    after (.rnd 0 0xFF) { start with inputs := { start.inputs with rnd := 0xFF } } (State.getV · 0) = some 0xFF := by decide

/-! ### Index register and memory -/

/-- M2. -/
theorem test_ldI : after (.ldI 0xFFF) start (·.i) = some 0x0FFF := by decide
/-- M8, M10. -/
theorem test_addI :
    after (.addI 0) { withRegs [(0, 1)] with i := 0xFFFF } (fun t => (t.i, State.getV t 0xF)) = some (0, 1) ∧
    after (.addI 0xF) { withRegs [(0xF, 5)] with i := 0x300 } (fun t => (t.i, State.getV t 0xF)) = some (0x305, 0) := by decide
/-- M11: the parameter `FX1E_SETS_VF` off. -/
theorem test_addI_parameter :
    (State.addIndex { withRegs [(0, 1), (0xF, 0x77)] with i := 0x0FFF } 0 false).i = 0x1000 ∧
    State.getV (State.addIndex { withRegs [(0, 1), (0xF, 0x77)] with i := 0x0FFF } 0 false) 0xF = 0x77 := by decide
/-- M13: only the low nibble counts. -/
theorem test_ldFont :
    ∃ t, exec (.ldFont 0) (withRegs [(0, 0x1A)]) = .next t ∧ t.i.toNat = Config.fontBase.val + 50 := by
  refine ⟨_, rfl, ?_⟩
  rw [setI_i, Operand.fontAddr_toNat]
  rfl
/-- M16. -/
theorem test_store :
    after (.store 2) { withRegs [(0, 0x11), (1, 0x22), (2, 0x33)] with i := 0x300 }
      (fun t => (t.mem, t.i)) = some ([(0x300, 0x11), (0x301, 0x22), (0x302, 0x33)], 0x300) := by decide
/-- M19. -/
theorem test_store_fault :
    after (.store 1) { withRegs [(0, 0xAA), (1, 0xBB)] with i := 0x0FFF } (fun t => (t.mem, t.status, t.pc))
      = some ([(0xFFF, 0xAA)], .halted (.outOfBounds 0x1000), 0x202) := by decide
/-- M21. -/
theorem test_load :
    after (.load 1) { start with i := 0x300, mem := [(0x300, 0xAB), (0x301, 0xCD)] }
      (fun t => (State.getV t 0, State.getV t 1, State.getV t 2, t.i)) = some (0xAB, 0xCD, 0, 0x300) := by decide
/-- M22. -/
theorem test_load_fault :
    after (.load 1) { withRegs [(1, 0xBB)] with i := 0x0FFF, mem := [(0xFFF, 0x5A)] }
      (fun t => (State.getV t 0, State.getV t 1, t.status)) = some (0x5A, 0xBB, .halted (.outOfBounds 0x1000)) := by decide
/-- A store of the reset value leaves no entry (the canonical form). -/
theorem test_write_canonical : Memory.write [(0x300, 1), (0x302, 2)] 0x300 0 = [(0x302, 2)] := by decide

/-! ### Display -/

/-- A display with two pixels lit. -/
def lit : Display := Display.toggle (Display.toggle Display.blank 0 0) 63 31

/-- G1v. -/
theorem test_cls :
    after (.cls 0) { withRegs [(0xF, 7)] with disp := lit }
      (fun t => (Display.pixel t.disp 0 0, Display.pixel t.disp 63 31, t.dirty, State.getV t 0xF))
      = some (false, false, false, 7) := by decide
/-- G6v: columns 64 and 65 and the row at 32 are dropped. -/
theorem test_drw_clips :
    after (.drw 0 1 2) { withRegs [(0, 62), (1, 31)] with i := 0x300, mem := [(0x300, 0xF0), (0x301, 0xFF)] }
      (fun t => (Display.pixel t.disp 62 31, Display.pixel t.disp 63 31, Display.pixel t.disp 61 31,
        Display.pixel t.disp 0 31, State.getV t 0xF, t.dirty))
      = some (true, true, false, false, 0, true) := by decide
/-- G4v, with another pixel lit that stays. -/
theorem test_drw_collides :
    after (.drw 0 1 1) { start with i := 0x300, mem := [(0x300, 0x80)], disp := lit }
      (fun t => (Display.pixel t.disp 0 0, Display.pixel t.disp 63 31, State.getV t 0xF)) = some (false, true, 1) := by decide
/-- G14v, G13v. -/
theorem test_drw_bounds :
    after (.drw 0 0 3) { start with i := 0x0FFE } (fun t => (t.status, t.dirty)) = some (.halted (.outOfBounds 0x1000), false) ∧
    after (.drw 0 0 0) { withRegs [(0xF, 1)] with i := 0x1000 } (fun t => (t.status, t.dirty, State.getV t 0xF))
      = some (.running, true, 0) := by decide
/-- G18v: bit 0 is column Vx + 7. -/
theorem test_drw_bit0 :
    after (.drw 0 1 1) { withRegs [(0, 56)] with i := 0x300, mem := [(0x300, 0x01)] }
      (fun t => (Display.pixel t.disp 63 0, Display.pixel t.disp 56 0)) = some (true, false) := by decide

/-! ### Timers and keys -/

/-- K1. -/
theorem test_ldFromDt : after (.ldFromDt 1) { start with dt := 0x2A } (State.getV · 1) = some 0x2A := by decide
/-- K2. -/
theorem test_ldDt : after (.ldDt 0) (withRegs [(0, 0x0A)]) (fun t => (t.dt, t.st)) = some (0x0A, 0) := by decide
/-- K3. -/
theorem test_ldSt : after (.ldSt 0) (withRegs [(0, 3)]) (fun t => (t.dt, t.st)) = some (0, 3) := by decide
/-- K8, K11: all 8 bits are compared. -/
theorem test_skp :
    after (.skp 0) { withRegs [(0, 5)] with inputs := { start.inputs with key := some 5 } } (·.pc) = some 0x204 ∧
    after (.skp 0) { withRegs [(0, 0x15)] with inputs := { start.inputs with key := some 5 } } (·.pc) = some 0x202 := by decide
/-- K12, K13. -/
theorem test_sknp :
    after (.sknp 0) { withRegs [(0, 5)] with inputs := { start.inputs with key := some 5 } } (·.pc) = some 0x202 ∧
    after (.sknp 0) (withRegs [(0, 5)]) (·.pc) = some 0x204 := by decide
/-- K15: the step's own key is not used. -/
theorem test_ldKey :
    after (.ldKey 3) { start with inputs := { start.inputs with key := some 7 } } (fun t => (t.status, t.pc, State.getV t 3))
      = some (.waitingForKey 3, 0x202, 0) := by decide
/-- K4, K5. -/
theorem test_tick :
    ((State.tick { start with dt := 0x0A, st := 3 }).dt, (State.tick { start with dt := 0x0A, st := 3 }).st) = (9, 2) ∧
    ((State.tick { start with dt := 0, st := 1 }).dt, (State.tick { start with dt := 0, st := 1 }).st) = (0, 0) ∧
    State.toneThisTick { start with st := 1 } = true := by decide
/-- S12. -/
theorem test_six_ticks :
    (State.advanceTimers { start with dt := 10 } 6).dt = 4 ∧ (State.advanceTimers { start with dt := 4 } 6).dt = 0 := by decide

/-! ### Steps -/

/-- `start` at the reset `pc`, with a word where the next step fetches. -/
def atWord (w : Word) : State := State.placeWord { start with pc := 0x200 } w

/-- P1, its first step. -/
theorem test_step_runs : afterStep (atWord 0x6005) (fun t => (State.getV t 0, t.pc, t.status)) = some (5, 0x202, .running) := by
  decide
/-- P6. -/
theorem test_step_unknown :
    afterStep (atWord 0xE000) (fun t => (t.status, t.pc)) = some (.halted (.unknownOpcode 0xE000), 0x202) := by decide
/-- T3, its second step, and T22's. -/
theorem test_step_fetch_fault :
    afterStep { start with pc := 0xFFF } (fun t => (t.status, t.pc)) = some (.halted (.outOfBounds 0x1000), 0xFFF) ∧
    afterStep { start with pc := 0x10FE } (fun t => (t.status, t.pc)) = some (.halted (.outOfBounds 0x10FE), 0x10FE) := by decide
/-- K16, K17, K18. -/
theorem test_step_waiting :
    afterStep { start with status := .waitingForKey 3, dt := 5, inputs := { start.inputs with ticks := 1 } }
      (fun t => (t.status, t.dt)) = some (.waitingForKey 3, 4) ∧
    afterStep { start with status := .waitingForKey 3, inputs := { start.inputs with key := some 7 } }
      (fun t => (t.status, State.getV t 3, t.pc)) = some (.running, 7, 0x202) := by decide
/-- The host's word is the first instruction after reset, free inputs and all. -/
theorem test_withFetchWord :
    afterStep (State.withFetchWord State.reset 16 0x6A42) (fun t => (State.getV t 0xA, t.pc)) = some (0x42, 0x202) := by decide
/-- R192, R59: the image is at 0x200, high address last. -/
theorem test_load_image :
    (loadImage [0x60, 0x05] start).toOption.map (·.mem) = some [(0x200, 0x60), (0x201, 0x05)] := by decide

/-! ### Witnesses: the hypotheses of each statement that has some, together, at boundary values -/

theorem witness_EncodeOfDecodeIsIdentity : decode 0x0AE0 = .ok (.cls 0xA) := by decide

theorem witness_DecodeFollowsOpcodeMap : decode 0xFF65 = .ok (.load 0xF) ∧ ∀ i, decode 0xFF66 ≠ .ok i := by
  have h : decode 0xFF66 = .error (.unknownOpcode 0xFF66) := by decide
  exact ⟨by decide, fun i hi => by rw [h] at hi; cases hi⟩

theorem witness_EqualReadsGiveEqualMemories :
    Memory.wf [(0x200, 1), (0xFFF, 2)] ∧ ∀ a, Memory.read [(0x200, 1), (0xFFF, 2)] a = Memory.read [(0x200, 1), (0xFFF, 2)] a :=
  ⟨by decide, fun _ => rfl⟩

theorem witness_FetchIsBigEndian :
    ({ start with pc := 4094 } : State).pc.toNat ≤ 4094 ∧ 4095 ≤ ({ start with pc := 4095 } : State).pc.toNat := by decide

theorem witness_StepRunsDecodedInstruction :
    ∃ t, (atWord 0x6005).status = .running ∧ (atWord 0x6005).pc.toNat ≤ 4094 ∧
      decode (Memory.read (atWord 0x6005).mem (atWord 0x6005).pc.toNat ++
        Memory.read (atWord 0x6005).mem ((atWord 0x6005).pc.toNat + 1)) = .ok (.ldImm 0 5) ∧
      exec (.ldImm 0 5) { atWord 0x6005 with
        pc := (atWord 0x6005).pc + 2, dt := Timer.after (atWord 0x6005).inputs.ticks (atWord 0x6005).dt,
        st := Timer.after (atWord 0x6005).inputs.ticks (atWord 0x6005).st,
        dirty := (atWord 0x6005).dirty && !(atWord 0x6005).inputs.displayRead } = .next t :=
  ⟨_, by decide, by decide, by decide, rfl⟩

theorem witness_HaltedStepChangesNothing : ({ start with status := .halted .stackOverflow } : State).status = .halted .stackOverflow :=
  rfl

theorem witness_WaitingStepSamplesKey :
    ({ start with status := .waitingForKey 0xF } : State).status = .waitingForKey 0xF ∧ start.inputs.key = none ∧
    ({ start with status := .waitingForKey 0xF, inputs := { start.inputs with key := some 0xF } } : State).status
      = .waitingForKey 0xF ∧
    ({ start with inputs := { start.inputs with key := some 0xF } } : State).inputs.key = some 0xF := by decide

theorem witness_FetchFaultHalts : start.status = .running ∧ 4095 ≤ ({ start with pc := 4095 } : State).pc.toNat := by decide

theorem witness_UnknownOpcodeHalts :
    ({ start with pc := 4094 } : State).status = .running ∧ ({ start with pc := 4094 } : State).pc.toNat ≤ 4094 ∧
    (0x0000 : Word) = Memory.read start.mem 4094 ++ Memory.read start.mem (4094 + 1) ∧ ∀ i, decode 0x0000 ≠ .ok i := by
  have h : decode 0x0000 = .error (.unknownOpcode 0x0000) := by decide
  exact ⟨by decide, by decide, by decide, fun i hi => by rw [h] at hi; cases hi⟩

theorem witness_ReturnPopsOrUnderflows :
    ({ start with stack := [0x1000] } : State).stack = 0x1000 :: [] ∧ start.stack = [] := by decide

theorem witness_CallPushesOrOverflows :
    ({ start with stack := List.replicate 15 0x202 } : State).stack.length < 16 ∧
    16 ≤ ({ start with stack := List.replicate 16 0x202 } : State).stack.length := by decide

theorem witness_CallThenReturnRestoresState :
    ({ start with stack := List.replicate 15 0x202 } : State).stack.length < 16 := by decide

theorem witness_SeventeenthCallOverflows : start.stack = [] := by decide

/-- For AddRegisterSetsCarry, SubtractsSetStrictFlag and ShiftsTakeSourceFromVy. -/
theorem witness_flag_clauses : (0xE : Reg) ≠ 0xF := by decide

theorem witness_RandomByteIsMaskedDraw :
    ({ start with inputs := { start.inputs with rnd := 0x0F } } : State).inputs.rnd.toNat ≤ (0x0F : Byte).toNat := by decide

theorem witness_RandomResultsAreExactlyTheSubsets : (0x05 : Byte) &&& 0x0F = 0x05 := by decide

theorem witness_OnlyListedInstructionsWriteVF :
    ∃ t, exec (.ldImm 0xF 1) start = .next t ∧ State.getV t 0xF ≠ State.getV start 0xF := ⟨_, rfl, by decide⟩

/-- For StoreRegistersInRange, LoadRegistersInRange and StoreThenLoadRestoresRegisters. -/
theorem witness_block_in_range : ({ start with i := 0xFF0 } : State).i.toNat + (0xF : Reg).toNat ≤ 4095 := by decide

/-- For StoreRegistersOutOfRange and LoadRegistersOutOfRange. -/
theorem witness_block_out_of_range :
    4095 < ({ start with i := 0xFF1 } : State).i.toNat + (0xF : Reg).toNat ∧
    4095 < ({ start with i := 0x1000 } : State).i.toNat + (0 : Reg).toNat := by decide

theorem witness_StoreIsSeenByNextFetch :
    ({ start with i := 0xFFE, pc := 0xFFE } : State).i.toNat + (1 : Reg).toNat ≤ 4095 ∧
    (1 : Reg).toNat = (0 : Reg).toNat + 1 ∧ (1 : Reg).toNat ≤ (1 : Reg).toNat ∧
    ({ start with i := 0xFFE, pc := 0xFFE } : State).pc.toNat
      = ({ start with i := 0xFFE, pc := 0xFFE } : State).i.toNat + (0 : Reg).toNat := by decide

/-- For DrawXorsSpriteAndReportsCollision and DrawTwiceRestoresDisplay. -/
theorem witness_draw_in_range :
    ((0 : Nibble).toNat = 0 ∨ ({ start with i := 0xFFFF } : State).i.toNat + (0 : Nibble).toNat ≤ 4096) ∧
    ((0xF : Nibble).toNat = 0 ∨ ({ start with i := 0xFF1 } : State).i.toNat + (0xF : Nibble).toNat ≤ 4096) := by decide

/-- For the two clauses of DrawTwiceRestoresDisplay on VF, in the display's last pixel: a set bit of the sprite over a dark
pixel, and a sprite of no rows. -/
theorem witness_DrawTwiceRestoresDisplay_clauses :
    (∃ px py, px < 64 ∧ py < 32 ∧ Display.pixel start.disp px py = false ∧
      State.spriteBit { start with i := 0x300, mem := [(0x300, 0x80)] } 63 31 1 px py = true) ∧
    ¬ ∃ px py, px < 64 ∧ py < 32 ∧ Display.pixel start.disp px py = false ∧
      State.spriteBit { start with i := 0x300, mem := [(0x300, 0x80)] } 63 31 0 px py = true := by
  refine ⟨⟨63, 31, by decide, by decide, by decide, by decide⟩, ?_⟩
  rintro ⟨px, py, -, -, -, h⟩
  simp [State.spriteBit] at h
  omega

theorem witness_DrawOutOfRangeDrawsNothing :
    0 < (0xF : Nibble).toNat ∧ 4096 < ({ start with i := 0xFF2 } : State).i.toNat + (0xF : Nibble).toNat := by decide

theorem witness_KeySkipsCompareAllBits :
    (∃ k, ({ withRegs [(0, 0xF)] with inputs := { start.inputs with key := some 0xF } } : State).inputs.key = some k ∧
      k.toNat = (State.getV { withRegs [(0, 0xF)] with inputs := { start.inputs with key := some 0xF } } 0).toNat) ∧
    ¬ ∃ k, start.inputs.key = some k ∧ k.toNat = (State.getV start 0).toNat :=
  ⟨⟨0xF, rfl, rfl⟩, fun ⟨_, h, _⟩ => by cases h⟩

theorem witness_StepKeepsInvariant : State.Inv State.reset ∧ ∃ t, step State.reset = .next t :=
  ⟨⟨Memory.wf_nil, Nat.zero_le _, fun _ h => (by cases h), by decide⟩, _, rfl⟩

theorem witness_EachPartHasItsWriters_memory :
    ∃ t, exec (.store 0) { withRegs [(0, 1)] with i := 0x300 } = .next t ∧ Memory.read t.mem 0x300 ≠ Memory.read start.mem 0x300 :=
  ⟨_, rfl, by decide⟩

theorem witness_EachPartHasItsWriters_registers :
    (∃ t, exec (.ldI 1) start = .next t ∧ t.i ≠ start.i) ∧ (∃ t, exec (.call 1) start = .next t ∧ t.stack ≠ start.stack) ∧
    (∃ t, exec (.ldDt 0) (withRegs [(0, 1)]) = .next t ∧ t.dt ≠ start.dt) ∧
    (∃ t, exec (.ldSt 0) (withRegs [(0, 1)]) = .next t ∧ t.st ≠ start.st) :=
  ⟨⟨_, rfl, by decide⟩, ⟨_, rfl, by decide⟩, ⟨_, rfl, by decide⟩, ⟨_, rfl, by decide⟩⟩

theorem witness_EachPartHasItsWriters_display :
    (∃ t, exec (.drw 0 0 0) start = .next t ∧ t.dirty ≠ start.dirty) ∧
    (∃ t, exec (.cls 0) { start with disp := lit } = .next t ∧ Display.pixel t.disp 0 0 ≠ Display.pixel lit 0 0) :=
  ⟨⟨_, rfl, by decide⟩, ⟨_, rfl, by decide⟩⟩

theorem witness_StatusMovesOnlyAsListed :
    (∃ t, step { start with status := .halted .stackOverflow } = .next t) ∧
    (∃ t, step { start with status := .waitingForKey 0xF } = .next t) ∧
    (∃ t, step (atWord 0xF30A) = .next t ∧ (atWord 0xF30A).status ≠ .waitingForKey 3 ∧ t.status = .waitingForKey 3) :=
  ⟨⟨_, rfl⟩, ⟨_, rfl⟩, ⟨_, rfl, by decide, by decide⟩⟩

theorem witness_EachConditionHasItsRaisers :
    start.status = .running ∧ (∃ t, exec (.ret 0) start = .next t ∧ t.status = .halted .stackUnderflow) ∧
    (∃ t, exec (.call 0) { start with stack := List.replicate 16 0 } = .next t ∧ t.status = .halted .stackOverflow) ∧
    (∃ t, exec (.load 0) { start with i := 0x1000 } = .next t ∧ t.status = .halted (.outOfBounds 0x1000)) :=
  ⟨by decide, ⟨_, rfl, by decide⟩, ⟨_, rfl, by decide⟩, ⟨_, rfl, by decide⟩⟩

theorem witness_SoundTimerAndDirtyAreNeverRead :
    EqualButHostFlags (atWord 0x6005) { atWord 0x6005 with st := 0xFF, dirty := true } ∧
    (∃ t, step (atWord 0x6005) = .next t) ∧ ∃ t, step { atWord 0x6005 with st := 0xFF, dirty := true } = .next t :=
  ⟨rfl, ⟨_, rfl⟩, ⟨_, rfl⟩⟩

theorem witness_LoadPlacesImageOrRefuses :
    (List.replicate 3584 (0 : Byte)).length ≤ 3584 ∧ 3584 < (List.replicate 3585 (0 : Byte)).length ∧ Memory.wf start.mem := by
  rw [List.length_replicate, List.length_replicate]
  exact ⟨by decide, by decide, Memory.wf_nil⟩

theorem witness_ParkedStateStaysParked : State.parked (atWord 0x1200) 0x200 := ⟨by decide, rfl, by decide⟩

end Sys2Proof.Tests
end

section
/-! The step of a running machine, forwards: what `step` is when the fetch succeeds and the word decodes. -/

namespace Sys2Proof.Machine

variable {s : State}

/-- Up to 4094 both bytes of the word lie in memory (20_memory.md R52). -/
theorem State.fetch_of_pc_le (h : s.pc.toNat ≤ 4094) :
    State.fetch s = .ok (Memory.read s.mem s.pc.toNat ++ Memory.read s.mem (s.pc.toNat + 1)) := by
  rw [State.fetch_eq, if_pos (by omega)]

theorem runWord_of_decode {w : Word} {i : Instr} (h : decode w = .ok i) (s : State) : runWord w s = exec i s := by
  simp only [runWord, h]

theorem runCycle_of_fetch {w : Word} (h : State.fetch s = .ok w) : runCycle s = runWord w (State.advancePc s) := by
  simp only [runCycle, h]

theorem step_of_running (h : s.status = .running) : step s = withNextInputs (runCycle (State.betweenSteps s)) := by
  simp only [step, cycle, h]

/-- What falls between two steps changes no byte and not `pc`, so the word found at `pc` before it is the word fetched. -/
theorem step_of_fetch_decode {w : Word} {i : Instr} (hs : s.status = .running) (hf : State.fetch s = .ok w)
    (hd : decode w = .ok i) : step s = withNextInputs (exec i (State.advancePc (State.betweenSteps s))) := by
  have hf' : State.fetch (State.betweenSteps s) = .ok w := hf
  rw [step_of_running hs, runCycle_of_fetch hf', runWord_of_decode hd]

/-- Settles O12: the fetch succeeds up to 4094, and the state the instruction meets is the one the statement writes out. -/
theorem stepRunsDecodedInstruction : Obligations.StepRunsDecodedInstruction := by
  intro s i t hs hpc hd he
  have he' : exec i (State.advancePc (State.betweenSteps s)) = .next t := he
  rw [step_of_fetch_decode hs (State.fetch_of_pc_le hpc) hd, he']
  rfl

end Sys2Proof.Machine
end

section
/-! What an instruction can do, by kind of effect: the one case split over the 33 arms of `exec`, which the statements about
the parts of the state go through. -/

namespace Sys2Proof.Machine

/-- `ExecEffect s i t`: executing `i` at `s` may leave `t`. A constructor is one kind of effect, with its guard; what its state
does not name is unchanged. In `reg` and `flagAndResult`, `hi` says what `writesVf` (Safety.lean) answers for the instructions
of that kind. -/
inductive ExecEffect (s : State) : Instr → State → Prop
  | reg {i : Instr} {x : Reg} (b : Byte) (hi : writesVf i = (x == 0xF)) : ExecEffect s i (State.setV s x b)
  | flagAndResult {i : Instr} (f : Byte) (x : Reg) (b : Byte) (hi : writesVf i = true) :
      ExecEffect s i (State.setFlagAndResult s f x b)
  | skip {i : Instr} (c : Bool) : ExecEffect s i (State.skipIf s c)
  | jump {i : Instr} {a : Word} (ha : a.toNat ≤ 0x10FE) : ExecEffect s i (State.setPc s a)
  | ret (k : Nibble) {a : Word} {rest : List Word} (hs : s.stack = a :: rest) :
      ExecEffect s (.ret k) { s with pc := a, stack := rest }
  | retEmpty (k : Nibble) (hs : s.stack = []) : ExecEffect s (.ret k) (State.raise s .stackUnderflow)
  | call (nnn : Addr12) (hs : s.stack.length < 16) :
      ExecEffect s (.call nnn) { s with pc := Operand.addr12 nnn, stack := s.pc :: s.stack }
  | callFull (nnn : Addr12) (hs : 16 ≤ s.stack.length) : ExecEffect s (.call nnn) (State.raise s .stackOverflow)
  | cls (k : Nibble) : ExecEffect s (.cls k) { s with disp := Display.blank }
  | drw (x y : Reg) {n : Nibble} {rows : List Byte} (hr : State.spriteBytes s n = some rows) :
      ExecEffect s (.drw x y n) (State.drawSprite s (State.getV s x).toNat (State.getV s y).toNat rows)
  | drwFault (x y : Reg) {n : Nibble} (hr : State.spriteBytes s n = none) :
      ExecEffect s (.drw x y n) (State.raise s (.outOfBounds (max s.i.toNat 4096)))
  | ldI (nnn : Addr12) : ExecEffect s (.ldI nnn) (State.setI s (Operand.addr12 nnn))
  | ldFont (x : Reg) : ExecEffect s (.ldFont x) (State.setI s (Operand.fontAddr (State.getV s x)))
  | addI (x : Reg) : ExecEffect s (.addI x) (State.addIndex s x Config.fx1eSetsVf)
  | store (x : Reg) (hb : s.i.toNat + x.toNat < 4096) :
      ExecEffect s (.store x) { s with mem := (Memory.storeRegs s.v s.i.toNat 0 (x.toNat + 1) s.mem).1 }
  | storeFault (x : Reg) (hb : 4096 ≤ s.i.toNat + x.toNat) :
      ExecEffect s (.store x) (State.raise { s with mem := (Memory.storeRegs s.v s.i.toNat 0 (x.toNat + 1) s.mem).1 }
        (.outOfBounds (max s.i.toNat 4096)))
  | load (x : Reg) (hb : s.i.toNat + x.toNat < 4096) :
      ExecEffect s (.load x) { s with v := (Memory.loadRegs s.mem s.i.toNat 0 (x.toNat + 1) s.v).1 }
  | loadFault (x : Reg) (hb : 4096 ≤ s.i.toNat + x.toNat) :
      ExecEffect s (.load x) (State.raise { s with v := (Memory.loadRegs s.mem s.i.toNat 0 (x.toNat + 1) s.v).1 }
        (.outOfBounds (max s.i.toNat 4096)))
  | ldKey (x : Reg) : ExecEffect s (.ldKey x) { s with status := .waitingForKey x }
  | ldDt (x : Reg) : ExecEffect s (.ldDt x) (State.setDt s (State.getV s x))
  | ldSt (x : Reg) : ExecEffect s (.ldSt x) (State.setSt s (State.getV s x))

variable {s t : State} {i : Instr}

/-- `ExecEffect` lists everything `exec` can do. -/
theorem ExecEffect.of_exec (h : exec i s = .next t) : ExecEffect s i t := by
  cases i with
  | ret k =>
    simp only [exec, execRet] at h
    cases hs : s.stack with
    | nil =>
      rw [State.pop_nil hs] at h
      cases h
      exact .retEmpty k hs
    | cons a rest =>
      rw [State.pop_cons hs] at h
      cases h
      exact .ret k hs
  | call nnn =>
    simp only [exec, execCall, State.push_spec] at h
    by_cases hs : s.stack.length < 16
    · rw [if_pos hs] at h
      cases h
      exact .call nnn hs
    · rw [if_neg hs] at h
      cases h
      exact .callFull nnn (by omega)
  | drw x y n =>
    simp only [exec, execDrw] at h
    cases hr : State.spriteBytes s n with
    | none =>
      rw [hr] at h
      cases h
      exact .drwFault x y hr
    | some rows =>
      rw [hr] at h
      cases h
      exact .drw x y hr
  | store x =>
    simp only [exec, execStore_spec] at h
    split at h
    · rename_i hb
      cases h
      exact .store x hb
    · rename_i hb
      cases h
      exact .storeFault x (by omega)
  | load x =>
    simp only [exec, execLoad_spec] at h
    split at h
    · rename_i hb
      cases h
      exact .load x hb
    · rename_i hb
      cases h
      exact .loadFault x (by omega)
  | jp nnn =>
    cases h
    exact .jump (by rw [Operand.addr12_toNat]; omega)
  | jpV0 nnn =>
    cases h
    exact .jump (by rw [Operand.addr12_add_byte16_toNat]; omega)
  | seImm | sneImm | seReg | sneReg | sknp | skp =>
    cases h
    exact .skip _
  | ldImm | addImm | ldReg | orReg | andReg | xorReg | rnd | ldFromDt =>
    cases h
    exact .reg _ rfl
  | addReg | sub | shr | subn | shl =>
    cases h
    exact .flagAndResult _ _ _ rfl
  | cls k => cases h; exact .cls k
  | ldI nnn => cases h; exact .ldI nnn
  | ldFont x => cases h; exact .ldFont x
  | addI x => cases h; exact .addI x
  | ldKey x => cases h; exact .ldKey x
  | ldDt x => cases h; exact .ldDt x
  | ldSt x => cases h; exact .ldSt x

/-! ### The parts of the state and who writes them (10_state.md R27 to R32) -/

theorem ExecEffect.mem_eq (h : ExecEffect s i t) :
    t.mem = s.mem ∨ ∃ x, i = .store x ∧ t.mem = (Memory.storeRegs s.v s.i.toNat 0 (x.toNat + 1) s.mem).1 := by
  cases h with
  | store x | storeFault x => exact .inr ⟨x, rfl, rfl⟩
  | _ => exact .inl rfl

theorem ExecEffect.i_eq (h : ExecEffect s i t) :
    t.i = s.i ∨ (∃ nnn, i = .ldI nnn) ∨ (∃ x, i = .addI x) ∨ (∃ x, i = .ldFont x) := by
  cases h with
  | ldI nnn => exact .inr (.inl ⟨nnn, rfl⟩)
  | addI x => exact .inr (.inr (.inl ⟨x, rfl⟩))
  | ldFont x => exact .inr (.inr (.inr ⟨x, rfl⟩))
  | _ => exact .inl rfl

theorem ExecEffect.stack_eq (h : ExecEffect s i t) :
    t.stack = s.stack ∨ (∃ k, i = .ret k ∧ s.stack = t.pc :: t.stack) ∨
      (∃ nnn, i = .call nnn ∧ s.stack.length < 16 ∧ t.stack = s.pc :: s.stack) := by
  cases h with
  | ret k hs => exact .inr (.inl ⟨k, rfl, hs⟩)
  | call nnn hs => exact .inr (.inr ⟨nnn, rfl, hs, rfl⟩)
  | _ => exact .inl rfl

theorem ExecEffect.disp_eq (h : ExecEffect s i t) :
    t.disp = s.disp ∨ (∃ k, i = .cls k) ∨ (∃ x y n, i = .drw x y n) := by
  cases h with
  | cls k => exact .inr (.inl ⟨k, rfl⟩)
  | drw x y => exact .inr (.inr ⟨x, y, _, rfl⟩)
  | _ => exact .inl rfl

theorem ExecEffect.dirty_eq (h : ExecEffect s i t) : t.dirty = s.dirty ∨ ∃ x y n, i = .drw x y n := by
  cases h with
  | drw x y => exact .inr ⟨x, y, _, rfl⟩
  | _ => exact .inl rfl

theorem ExecEffect.dt_eq (h : ExecEffect s i t) : t.dt = s.dt ∨ ∃ x, i = .ldDt x := by
  cases h with
  | ldDt x => exact .inr ⟨x, rfl⟩
  | _ => exact .inl rfl

theorem ExecEffect.st_eq (h : ExecEffect s i t) : t.st = s.st ∨ ∃ x, i = .ldSt x := by
  cases h with
  | ldSt x => exact .inr ⟨x, rfl⟩
  | _ => exact .inl rfl

/-- Where `pc` can go: nowhere, past one instruction, back to the newest stack entry, or to a target in the range of Bnnn. -/
theorem ExecEffect.pc_eq (h : ExecEffect s i t) :
    t.pc = s.pc ∨ t.pc = s.pc + 2 ∨ s.stack = t.pc :: t.stack ∨ t.pc.toNat ≤ 0x10FE := by
  cases h with
  | skip c =>
    cases c with
    | false => exact .inl rfl
    | true => exact .inr (.inl rfl)
  | ret k hs => exact .inr (.inr (.inl hs))
  | jump ha => exact .inr (.inr (.inr ha))
  | call nnn =>
    refine .inr (.inr (.inr ?_))
    show (Operand.addr12 nnn).toNat ≤ 0x10FE
    rw [Operand.addr12_toNat]
    omega
  | _ => exact .inl rfl

/-- A block load up to register `x` reads no byte into VF unless `x` is VF (42_index_memory.md R144). -/
theorem Memory.get_loadRegs_regF {x : Reg} (hx : x ≠ 0xF) (m : Memory) (base : Nat) (v : RegFile) :
    RegFile.get (Memory.loadRegs m base 0 (x.toNat + 1) v).1 0xF = RegFile.get v 0xF := by
  have hlt : x.toNat ≠ 15 := fun e => hx (BitVec.eq_of_toNat_eq e)
  have hF : (0xF : Reg).toNat = 15 := rfl
  rw [(Memory.loadRegs_spec m base 0 (x.toNat + 1) v (by omega)).1, hF, if_neg (by omega)]

theorem ExecEffect.vf_eq (h : ExecEffect s i t) : State.getV t 0xF = State.getV s 0xF ∨ writesVf i = true := by
  cases h with
  | @reg _ x b hi =>
    by_cases hx : x = 0xF
    · exact .inr (by rw [hi, hx]; rfl)
    · exact .inl (by rw [getV_setV, if_neg (Ne.symm hx)])
  | flagAndResult _ _ _ hi => exact .inr hi
  | drw | addI => exact .inr rfl
  | load x | loadFault x =>
    by_cases hx : x = 0xF
    · exact .inr (by rw [hx]; rfl)
    · exact .inl (Memory.get_loadRegs_regF hx ..)
  | _ => exact .inl rfl

/-- Settles O37: the effects that write registers are those of the listed instructions. -/
theorem onlyListedInstructionsWriteVF : Obligations.OnlyListedInstructionsWriteVF := by
  intro i s t h hne
  exact (ExecEffect.of_exec h).vf_eq.resolve_left hne

/-- Settles O55, part by part. -/
theorem eachPartHasItsWriters : Obligations.EachPartHasItsWriters := by
  intro i s t h
  have he := ExecEffect.of_exec h
  refine ⟨fun ⟨a, ha⟩ => ?_, he.i_eq.resolve_left, fun hne => ?_, he.disp_eq.resolve_left, he.dirty_eq.resolve_left,
    he.dt_eq.resolve_left, he.st_eq.resolve_left⟩
  · obtain ⟨x, hx, -⟩ := he.mem_eq.resolve_left fun e => ha (by rw [e])
    exact ⟨x, hx⟩
  · obtain ⟨k, hk, -⟩ | ⟨nnn, hc, -⟩ := he.stack_eq.resolve_left hne
    · exact .inl ⟨k, hk⟩
    · exact .inr ⟨nnn, hc⟩

end Sys2Proof.Machine
end

section
/-! The invariant (10_state.md R27, R30): it holds at reset and every step keeps it. -/

namespace Sys2Proof.Machine

variable {s t : State}

/-- Settles O8: memory and stack list nothing at reset, and `pc` is 0x200. -/
theorem resetMeetsInvariant : Obligations.ResetMeetsInvariant :=
  ⟨Memory.wf_nil, Nat.zero_le 16, fun _ ha => absurd ha List.not_mem_nil, by decide⟩

/-- The invariant speaks of memory, stack and `pc` only. -/
theorem State.Inv.congr (h : State.Inv s) (hm : t.mem = s.mem) (hs : t.stack = s.stack) (hp : t.pc = s.pc) :
    State.Inv t := by
  unfold State.Inv
  rw [hm, hs, hp]
  exact h

/-- The word of a successful fetch lies in memory, so `pc` advanced past it is at most 4096. -/
theorem State.advancePc_pc_le {w : Word} (hf : State.fetch s = .ok w) : (State.advancePc s).pc.toNat ≤ 4096 := by
  have h2 : (2 : Word).toNat = 2 := rfl
  rw [State.fetch_eq] at hf
  split at hf
  · rw [advancePc_pc, BitVec.toNat_add, h2]
    omega
  · cases hf

theorem advancePc_keeps_inv (h : State.Inv s) {w : Word} (hf : State.fetch s = .ok w) :
    State.Inv (State.advancePc s) := by
  obtain ⟨hmem, hlen, hent, -⟩ := h
  exact ⟨hmem, hlen, hent, Nat.le_trans (State.advancePc_pc_le hf) (by decide)⟩

/-- An instruction keeps the invariant. `hpc` is what a fetch leaves of R27's bound: it keeps the entry that CALL pushes and
the target of a skip in range. -/
theorem exec_keeps_inv {i : Instr} (hinv : State.Inv s) (hpc : s.pc.toNat ≤ 4096) (h : exec i s = .next t) :
    State.Inv t := by
  obtain ⟨hmem, hlen, hent, -⟩ := hinv
  have he := ExecEffect.of_exec h
  have hmem' : Memory.wf t.mem := by
    obtain e | ⟨x, -, e⟩ := he.mem_eq
    · rwa [e]
    · rw [e]
      exact Memory.wf_storeRegs _ _ _ _ hmem
  have hstack' : t.stack.length ≤ 16 ∧ ∀ a ∈ t.stack, a.toNat ≤ 4096 := by
    obtain e | ⟨k, -, e⟩ | ⟨nnn, -, hlt, e⟩ := he.stack_eq
    · rw [e]
      exact ⟨hlen, hent⟩
    · rw [e] at hlen hent
      exact ⟨Nat.le_of_succ_le hlen, fun a ha => hent a (List.mem_cons_of_mem _ ha)⟩
    · rw [e]
      exact ⟨hlt, List.forall_mem_cons.mpr ⟨hpc, hent⟩⟩
  have hpc' : t.pc.toNat ≤ 0x10FE := by
    obtain e | e | e | hle := he.pc_eq
    · rw [e]
      omega
    · have h2 : (2 : Word).toNat = 2 := rfl
      rw [e, BitVec.toNat_add, h2]
      omega
    · have := hent t.pc (by rw [e]; exact List.mem_cons_self)
      omega
    · exact hle
  exact ⟨hmem', hstack'.1, hstack'.2, hpc'⟩

theorem sampleKey_keeps_inv (h : State.Inv s) (x : Reg) : State.Inv (State.sampleKey s x) := by
  cases hk : s.inputs.key with
  | none => rwa [State.sampleKey_none hk]
  | some k =>
    rw [State.sampleKey_some hk]
    exact h.congr rfl rfl rfl

/-- Settles O54, by how far the step gets: only an instruction changes memory or the stack, and it runs at a `pc` that the
fetch has bounded. -/
theorem stepKeepsInvariant : Obligations.StepKeepsInvariant := by
  intro s t hinv hstep
  have hbetween : State.Inv (State.betweenSteps s) := hinv.congr rfl rfl rfl
  obtain ⟨r, -, rfl⟩ | ⟨x, -, rfl⟩ | ⟨-, a, -, rfl⟩ | ⟨-, w, e, hf, -, rfl⟩ |
    ⟨-, w, i, u, hf, -, hu, rfl⟩ := step_cases hstep
  · exact hinv
  · exact (sampleKey_keeps_inv hbetween x).congr rfl rfl rfl
  · exact hbetween.congr rfl rfl rfl
  · have hadv : State.Inv (State.advancePc (State.betweenSteps s)) := advancePc_keeps_inv hbetween hf
    exact hadv.congr rfl rfl rfl
  · have hpc : (State.advancePc (State.betweenSteps s)).pc.toNat ≤ 4096 := State.advancePc_pc_le hf
    have hu' : State.Inv u := exec_keeps_inv (advancePc_keeps_inv hbetween hf) hpc hu
    exact hu'.congr rfl rfl rfl

end Sys2Proof.Machine
end

section
/-! The sound timer and `dirty` are never read (10_state.md R29, R32): every part of a step takes two states that differ in
nothing else to two such states. -/

namespace Sys2Proof.Machine

variable {s s' : State}

/-- Both outcomes are next states, and these differ in the sound timer and `dirty` at most. -/
def AgreeButHostFlags : Host.Outcome State Fault Refusal → Host.Outcome State Fault Refusal → Prop
  | .next t, .next t' => EqualButHostFlags t t'
  | _, _ => False

/-- The pairs of the relation, written with the values in which they differ. -/
theorem equalButHostFlags_iff : EqualButHostFlags s s' ↔ ∃ b d, s' = { s with st := b, dirty := d } := by
  constructor
  · exact fun h => ⟨s'.st, s'.dirty, h⟩
  · rintro ⟨b, d, rfl⟩
    rfl

theorem equalButHostFlags_betweenSteps (h : EqualButHostFlags s s') :
    EqualButHostFlags (State.betweenSteps s) (State.betweenSteps s') := by
  obtain ⟨b, d, rfl⟩ := equalButHostFlags_iff.mp h
  rfl

theorem equalButHostFlags_advancePc (h : EqualButHostFlags s s') :
    EqualButHostFlags (State.advancePc s) (State.advancePc s') := by
  obtain ⟨b, d, rfl⟩ := equalButHostFlags_iff.mp h
  rfl

theorem equalButHostFlags_sampleKey (h : EqualButHostFlags s s') (x : Reg) :
    EqualButHostFlags (State.sampleKey s x) (State.sampleKey s' x) := by
  obtain ⟨b, d, rfl⟩ := equalButHostFlags_iff.mp h
  unfold State.sampleKey
  cases s.inputs.key <;> rfl

theorem agree_halt (h : EqualButHostFlags s s') (r : HaltReason) : AgreeButHostFlags (halt s r) (halt s' r) := by
  obtain ⟨b, d, rfl⟩ := equalButHostFlags_iff.mp h
  rfl

theorem agree_execRet (h : EqualButHostFlags s s') : AgreeButHostFlags (execRet s) (execRet s') := by
  have hstack : s'.stack = s.stack := by rw [h]
  unfold execRet
  cases hs : s.stack with
  | nil =>
    rw [State.pop_nil hs, State.pop_nil (hstack.trans hs)]
    exact agree_halt h _
  | cons a rest =>
    rw [State.pop_cons hs, State.pop_cons (hstack.trans hs)]
    obtain ⟨b, d, rfl⟩ := equalButHostFlags_iff.mp h
    rfl

/-- An instruction with a guard branches alike in both states, since no guard reads the two parts; any other is one update,
whose values are computed from neither. -/
theorem agree_exec (h : EqualButHostFlags s s') (i : Instr) : AgreeButHostFlags (exec i s) (exec i s') := by
  obtain ⟨b, d, rfl⟩ := equalButHostFlags_iff.mp h
  cases i with
  | ret k => exact agree_execRet h
  | call nnn =>
    simp only [exec, execCall, State.push_spec]
    by_cases hs : s.stack.length < 16
    · simp only [if_pos hs]
      rfl
    · simp only [if_neg hs]
      rfl
  | drw x y n =>
    simp only [exec, execDrw, State.spriteBytes_spec]
    split <;> rfl
  | store x =>
    simp only [exec, execStore_spec]
    split <;> rfl
  | load x =>
    simp only [exec, execLoad_spec]
    split <;> rfl
  | _ => rfl

theorem agree_runWord (h : EqualButHostFlags s s') (w : Word) : AgreeButHostFlags (runWord w s) (runWord w s') := by
  unfold runWord
  cases decode w with
  | error e => exact agree_halt h _
  | ok i => exact agree_exec h i

theorem agree_runCycle (h : EqualButHostFlags s s') : AgreeButHostFlags (runCycle s) (runCycle s') := by
  have hfetch : State.fetch s' = State.fetch s := by rw [h]; rfl
  unfold runCycle
  rw [hfetch]
  cases State.fetch s with
  | error a => exact agree_halt h _
  | ok w => exact agree_runWord (equalButHostFlags_advancePc h) w

theorem agree_withNextInputs {o o' : Host.Outcome State Fault Refusal} (h : AgreeButHostFlags o o') :
    AgreeButHostFlags (withNextInputs o) (withNextInputs o') := by
  match o, o', h with
  | .next t, .next t', h =>
    obtain ⟨b, d, rfl⟩ := equalButHostFlags_iff.mp h
    rfl

theorem agree_step (h : EqualButHostFlags s s') : AgreeButHostFlags (step s) (step s') := by
  have hstatus : s'.status = s.status := by rw [h]
  have hbetween := equalButHostFlags_betweenSteps h
  unfold step cycle
  rw [hstatus]
  cases s.status with
  | halted r => exact h
  | waitingForKey x => exact agree_withNextInputs (equalButHostFlags_sampleKey hbetween x)
  | running => exact agree_withNextInputs (agree_runCycle hbetween)

/-- Settles O58: both steps answer, and their answers agree. -/
theorem soundTimerAndDirtyAreNeverRead : Obligations.SoundTimerAndDirtyAreNeverRead := by
  intro s s' t t' hs h h'
  have hagree := agree_step hs
  rwa [h, h'] at hagree

end Sys2Proof.Machine
end

section
/-! The canonical form determines the memory (20_memory.md R50): its entries are the bytes that read as something else than
their reset value, and they stand in rising order. -/

namespace Sys2Proof.Machine

variable {m m' : Memory}

theorem Memory.read_of_not_listed {a : Nat} (h : ∀ c ∈ m, c.1 ≠ a) : Memory.read m a = Memory.resetByte a := by
  induction m with
  | nil => rfl
  | cons c m ih =>
    obtain ⟨hc, hm⟩ := List.forall_mem_cons.mp h
    rw [Memory.read_cons, if_neg (Ne.symm hc), ih hm]

theorem Memory.read_of_mem (h : m.Pairwise fun c d => c.1 < d.1) {c : Host.Cell} (hc : c ∈ m) :
    Memory.read m c.1 = c.2 := by
  induction m with
  | nil => cases hc
  | cons d m ih =>
    obtain ⟨hd, hm⟩ := List.pairwise_cons.mp h
    rw [Memory.read_cons]
    obtain rfl | hc := List.mem_cons.mp hc
    · exact if_pos rfl
    · rw [if_neg (Nat.ne_of_gt (hd c hc)), ih hm hc]

/-- The entries of a canonical memory, told by its reads alone. -/
theorem Memory.mem_iff_read (h : Memory.wf m) (c : Host.Cell) :
    c ∈ m ↔ Memory.read m c.1 = c.2 ∧ c.2 ≠ Memory.resetByte c.1 := by
  obtain ⟨hrising, hentry⟩ := h
  constructor
  · exact fun hc => ⟨Memory.read_of_mem hrising hc, (hentry c hc).2⟩
  · rintro ⟨hread, hne⟩
    obtain ⟨d, hd, hda⟩ : ∃ d ∈ m, d.1 = c.1 := by
      by_contra hnone
      exact hne (hread ▸ Memory.read_of_not_listed fun d hd e => hnone ⟨d, hd, e⟩)
    have hdb : d.2 = c.2 := by rw [← Memory.read_of_mem hrising hd, hda, hread]
    rwa [← Prod.ext hda hdb]

/-- Two memories in rising order with the same entries are the same list. -/
theorem Memory.eq_of_rising (h : m.Pairwise fun c d => c.1 < d.1) (h' : m'.Pairwise fun c d => c.1 < d.1)
    (hmem : ∀ c, c ∈ m ↔ c ∈ m') : m = m' := by
  have : Std.Irrefl fun c d : Host.Cell => c.1 < d.1 := ⟨fun c => Nat.lt_irrefl c.1⟩
  have : Std.Antisymm fun c d : Host.Cell => c.1 < d.1 := ⟨fun _ _ hcd hdc => absurd hcd (Nat.lt_asymm hdc)⟩
  exact List.Subset.antisymm_of_pairwise h h' (fun c => (hmem c).mp) fun c => (hmem c).mpr

/-- Settles O10: equal reads give equal entries, and rising order leaves one list of them. -/
theorem equalReadsGiveEqualMemories : Obligations.EqualReadsGiveEqualMemories := by
  intro m m' h h' hread
  refine Memory.eq_of_rising h.1 h'.1 fun c => ?_
  rw [Memory.mem_iff_read h, Memory.mem_iff_read h', hread]

end Sys2Proof.Machine
end

section
/-! Code that the program itself stores (20_memory.md R62): Fx55, then the fetch. -/

namespace Sys2Proof.Machine

/-- In range, the byte at `base + r` after a block store up to register `x` is register `r`
(42_index_memory.md R143). -/
theorem Memory.read_storeRegs_of_le {x r : Reg} {base : Nat} (hbase : base + x.toNat ≤ 4095) (hr : r.toNat ≤ x.toNat)
    (v : RegFile) (m : Memory) :
    Memory.read (Memory.storeRegs v base 0 (x.toNat + 1) m).1 (base + r.toNat) = RegFile.get v r := by
  rw [(Memory.storeRegs_spec v base 0 (x.toNat + 1) m).1, if_pos (by omega), Nat.add_sub_cancel_left,
    BitVec.ofNat_toNat, BitVec.setWidth_eq]

/-- In range, Fx55 changes memory and nothing else. -/
theorem exec_store_of_le {x : Reg} {s : State} (h : s.i.toNat + x.toNat ≤ 4095) :
    exec (.store x) s = .next { s with mem := (Memory.storeRegs s.v s.i.toNat 0 (x.toNat + 1) s.mem).1 } := by
  have hstore : exec (.store x) s = execStore x s := rfl
  rw [hstore, execStore_spec]
  exact if_pos (Nat.lt_succ_of_le h)

/-- A fetch whose two bytes are known: the lower-addressed one is the high byte (20_memory.md R53). -/
theorem State.fetch_of_reads {s : State} {hi lo : Byte} (h : s.pc.toNat ≤ 4094)
    (hhi : Memory.read s.mem s.pc.toNat = hi) (hlo : Memory.read s.mem (s.pc.toNat + 1) = lo) :
    State.fetch s = .ok (hi ++ lo) := by
  rw [State.fetch_of_pc_le h, hhi, hlo]

/-- Settles O46: `pc` and `pc + 1` are the addresses of the two registers, and both hold their register's byte. -/
theorem storeIsSeenByNextFetch : Obligations.StoreIsSeenByNextFetch := by
  intro x r q s hrange hq hqx hpc
  have hpc' : s.pc.toNat + 1 = s.i.toNat + q.toNat := by omega
  refine ⟨_, exec_store_of_le hrange, State.fetch_of_reads (show s.pc.toNat ≤ 4094 by omega) ?_ ?_⟩
  · show Memory.read _ s.pc.toNat = _
    rw [hpc, Memory.read_storeRegs_of_le hrange (by omega)]
    rfl
  · show Memory.read _ (s.pc.toNat + 1) = _
    rw [hpc', Memory.read_storeRegs_of_le hrange hqx]
    rfl

end Sys2Proof.Machine
end

section
/-! Decoding and encoding are inverse (30_encoding.md R71 to R78, R83): what each instruction's own word decodes to, and the
two answers that `decode` can give. -/

namespace Sys2Proof

variable {w : Word}

/-- The second look of a family finds the fields that R72's formats put into the word. -/
theorem decode_encode (i : Instr) : decode (encode i) = .ok i := by
  cases i with
  | cls | ret => simp [encode, decode_op0, decodeFamily0]
  | jp => simp [encode, decode_op1]
  | call => simp [encode, decode_op2]
  | seImm => simp [encode, decode_op3]
  | sneImm => simp [encode, decode_op4]
  | seReg => simp [encode, decode_op5]
  | ldImm => simp [encode, decode_op6]
  | addImm => simp [encode, decode_op7]
  | ldReg | orReg | andReg | xorReg | addReg | sub | shr | subn | shl => simp [encode, decode_op8, decodeFamily8]
  | sneReg => simp [encode, decode_op9]
  | ldI => simp [encode, decode_opA]
  | jpV0 => simp [encode, decode_opB]
  | rnd => simp [encode, decode_opC]
  | drw => simp [encode, decode_opD]
  | skp | sknp => simp [encode, decode_opE, decodeFamilyE]
  | addI | ldFont | store | load | ldKey | ldFromDt | ldDt | ldSt => simp [encode, decode_opF, decodeFamilyF]

theorem decodeBytes_encodeBytes (i : Instr) : decodeBytes (encodeBytes i) = .ok (i, []) := by
  rw [encodeBytes, decodeBytes_cons_cons, wordOfBytes_hi_lo, decode_encode]

/-- Settles O1: the bytes are the high and the low half of the word, and the word decodes to its instruction. -/
theorem decodeOfEncodeIsIdentity : Obligations.DecodeOfEncodeIsIdentity :=
  fun i => ⟨decode_encode i, decodeBytes_encodeBytes i⟩

/-! A word whose dispatch fields are known, put together again. -/

theorem formatA_of_op {a : Nibble} (ha : Word.op w = a) : formatA a (Word.nnn w) = w := ha ▸ formatA_fields w

theorem formatX_of_op {a : Nibble} (ha : Word.op w = a) : formatX a (Word.x w) (Word.nn w) = w := ha ▸ formatX_fields w

theorem formatX_of_op_nn {a : Nibble} {b : Byte} (ha : Word.op w = a) (hb : Word.nn w = b) :
    formatX a (Word.x w) b = w := hb ▸ formatX_of_op ha

theorem formatXY_of_op {a : Nibble} (ha : Word.op w = a) : formatXY a (Word.x w) (Word.y w) (Word.n w) = w :=
  ha ▸ formatXY_fields w

theorem formatXY_of_op_n {a b : Nibble} (ha : Word.op w = a) (hb : Word.n w = b) :
    formatXY a (Word.x w) (Word.y w) b = w := hb ▸ formatXY_of_op ha

/-- The answers that `decode` can give for `w`: an instruction whose word is `w`, or `UnknownOpcode` of `w`. -/
inductive DecodeAnswer (w : Word) : Except DecodeError Instr → Prop
  | ok {i : Instr} (h : encode i = w) : DecodeAnswer w (.ok i)
  | unknown : DecodeAnswer w (.error (.unknownOpcode w))

theorem decodeFamily0_answer (hop : Word.op w = 0x0) : DecodeAnswer w (decodeFamily0 w) := by
  unfold decodeFamily0
  split_ifs with hE0 hEE
  · exact .ok (formatX_of_op_nn hop hE0)
  · exact .ok (formatX_of_op_nn hop hEE)
  · exact .unknown

theorem decodeFamily8_answer (hop : Word.op w = 0x8) : DecodeAnswer w (decodeFamily8 w) := by
  unfold decodeFamily8
  split_ifs with h0 h1 h2 h3 h4 h5 h6 h7 hE
  · exact .ok (formatXY_of_op_n hop h0)
  · exact .ok (formatXY_of_op_n hop h1)
  · exact .ok (formatXY_of_op_n hop h2)
  · exact .ok (formatXY_of_op_n hop h3)
  · exact .ok (formatXY_of_op_n hop h4)
  · exact .ok (formatXY_of_op_n hop h5)
  · exact .ok (formatXY_of_op_n hop h6)
  · exact .ok (formatXY_of_op_n hop h7)
  · exact .ok (formatXY_of_op_n hop hE)
  · exact .unknown

theorem decodeFamilyE_answer (hop : Word.op w = 0xE) : DecodeAnswer w (decodeFamilyE w) := by
  unfold decodeFamilyE
  split_ifs with h9E hA1
  · exact .ok (formatX_of_op_nn hop h9E)
  · exact .ok (formatX_of_op_nn hop hA1)
  · exact .unknown

theorem decodeFamilyF_answer (hop : Word.op w = 0xF) : DecodeAnswer w (decodeFamilyF w) := by
  unfold decodeFamilyF
  split_ifs with h07 h0A h15 h18 h1E h29 h55 h65
  · exact .ok (formatX_of_op_nn hop h07)
  · exact .ok (formatX_of_op_nn hop h0A)
  · exact .ok (formatX_of_op_nn hop h15)
  · exact .ok (formatX_of_op_nn hop h18)
  · exact .ok (formatX_of_op_nn hop h1E)
  · exact .ok (formatX_of_op_nn hop h29)
  · exact .ok (formatX_of_op_nn hop h55)
  · exact .ok (formatX_of_op_nn hop h65)
  · exact .unknown

/-- By primary dispatch (R74): a family without a second look has just one instruction, in whose format the word is. -/
theorem decode_answer (w : Word) : DecodeAnswer w (decode w) := by
  obtain hop | hop | hop | hop | hop | hop | hop | hop | hop | hop | hop | hop | hop | hop | hop | hop := op_cases w
  · exact decode_op0 w hop ▸ decodeFamily0_answer hop
  · exact decode_op1 w hop ▸ .ok (formatA_of_op hop)
  · exact decode_op2 w hop ▸ .ok (formatA_of_op hop)
  · exact decode_op3 w hop ▸ .ok (formatX_of_op hop)
  · exact decode_op4 w hop ▸ .ok (formatX_of_op hop)
  · exact decode_op5 w hop ▸ .ok (formatXY_of_op hop)
  · exact decode_op6 w hop ▸ .ok (formatX_of_op hop)
  · exact decode_op7 w hop ▸ .ok (formatX_of_op hop)
  · exact decode_op8 w hop ▸ decodeFamily8_answer hop
  · exact decode_op9 w hop ▸ .ok (formatXY_of_op hop)
  · exact decode_opA w hop ▸ .ok (formatA_of_op hop)
  · exact decode_opB w hop ▸ .ok (formatA_of_op hop)
  · exact decode_opC w hop ▸ .ok (formatX_of_op hop)
  · exact decode_opD w hop ▸ .ok (formatXY_of_op hop)
  · exact decode_opE w hop ▸ decodeFamilyE_answer hop
  · exact decode_opF w hop ▸ decodeFamilyF_answer hop

theorem encode_of_decode {i : Instr} (h : decode w = .ok i) : encode i = w := by
  cases h ▸ decode_answer w with
  | ok he => exact he

/-- The other error, `truncated`, is about bytes that are no word. -/
theorem decode_eq_unknownOpcode (h : ∀ i, decode w ≠ .ok i) : decode w = .error (.unknownOpcode w) := by
  generalize hd : decode w = r at h
  cases hd ▸ decode_answer w with
  | ok => exact absurd rfl (h _)
  | unknown => rfl

/-- Settles O2: `decode` answers no instruction but one whose word it was given. -/
theorem encodeOfDecodeIsIdentity : Obligations.EncodeOfDecodeIsIdentity := fun _ _ h => encode_of_decode h

/-- Settles O4, group by group: closed words, which the decoder evaluates. -/
theorem sampleWordsDecode : Obligations.SampleWordsDecode :=
  ⟨by decide, by decide, by decide, by decide⟩

end Sys2Proof
end

section
/-! The opcode map (30_encoding.md R76, R78): its rows exclude each other, and together they accept just the words of
instructions. -/

namespace Sys2Proof

variable {w : Word}

/-- Two rows that accept one word ask the same of the bits that both look at. -/
theorem OpcodeRow.pattern_and_mask_of_accepts {row row' : OpcodeRow} (h : row.accepts w = true)
    (h' : row'.accepts w = true) : row.pattern &&& row'.mask = row'.pattern &&& row.mask := by
  rw [← beq_iff_eq.mp h, ← beq_iff_eq.mp h']
  ac_rfl

/-- Any two rows of the map ask different things of some bit that both look at. -/
theorem opcodeMap_rows_disagree : ∀ row ∈ opcodeMap, ∀ row' ∈ opcodeMap,
    row.pattern &&& row'.mask = row'.pattern &&& row.mask → row = row' := by decide

theorem opcodeMap_accepts_unique {row row' : OpcodeRow} (hr : row ∈ opcodeMap) (hr' : row' ∈ opcodeMap)
    (h : row.accepts w = true) (h' : row'.accepts w = true) : row = row' :=
  opcodeMap_rows_disagree row hr row' hr' (OpcodeRow.pattern_and_mask_of_accepts h h')

theorem Instr.row_mem_opcodeMap (i : Instr) : i.row ∈ opcodeMap := by
  cases i <;> simp [Instr.row, opcodeMap]

/-! A row compares the dispatch fields of the word with those of its pattern. -/

theorem op_of_accepts {p : Word} (h : OpcodeRow.accepts ⟨0xF000, p⟩ w = true) : Word.op w = Word.op p := by
  have hp : formatA (Word.op w) 0 = p := ((and_F000_eq_iff w _).mpr rfl).symm.trans (beq_iff_eq.mp h)
  rw [← hp, op_formatA]

theorem op_nn_of_accepts {p : Word} (h : OpcodeRow.accepts ⟨0xF0FF, p⟩ w = true) :
    Word.op w = Word.op p ∧ Word.nn w = Word.nn p := by
  have hp : formatX (Word.op w) 0 (Word.nn w) = p :=
    ((and_F0FF_eq_iff w _ _).mpr ⟨rfl, rfl⟩).symm.trans (beq_iff_eq.mp h)
  rw [← hp, op_formatX, nn_formatX]
  exact ⟨rfl, rfl⟩

theorem op_n_of_accepts {p : Word} (h : OpcodeRow.accepts ⟨0xF00F, p⟩ w = true) :
    Word.op w = Word.op p ∧ Word.n w = Word.n p := by
  have hp : formatXY (Word.op w) 0 0 (Word.n w) = p :=
    ((and_F00F_eq_iff w _ _).mpr ⟨rfl, rfl⟩).symm.trans (beq_iff_eq.mp h)
  rw [← hp, op_formatXY, n_formatXY]
  exact ⟨rfl, rfl⟩

/-- A word that an instruction's row accepts is in the family that holds the instruction, and passes a second look there. -/
theorem decode_ne_error_of_row_accepts {i : Instr} (h : i.row.accepts w = true) (e : DecodeError) :
    decode w ≠ .error e := by
  cases i with
  | cls | ret =>
    obtain ⟨hop, hnn⟩ := op_nn_of_accepts h
    rw [decode_op0 w hop, decodeFamily0, hnn]
    simp [Word.nn]
  | jp => simp [decode_op1 w (op_of_accepts h)]
  | call => simp [decode_op2 w (op_of_accepts h)]
  | seImm => simp [decode_op3 w (op_of_accepts h)]
  | sneImm => simp [decode_op4 w (op_of_accepts h)]
  | seReg => simp [decode_op5 w (op_of_accepts h)]
  | ldImm => simp [decode_op6 w (op_of_accepts h)]
  | addImm => simp [decode_op7 w (op_of_accepts h)]
  | ldReg | orReg | andReg | xorReg | addReg | sub | shr | subn | shl =>
    obtain ⟨hop, hn⟩ := op_n_of_accepts h
    rw [decode_op8 w hop, decodeFamily8, hn]
    simp [Word.n]
  | sneReg => simp [decode_op9 w (op_of_accepts h)]
  | ldI => simp [decode_opA w (op_of_accepts h)]
  | jpV0 => simp [decode_opB w (op_of_accepts h)]
  | rnd => simp [decode_opC w (op_of_accepts h)]
  | drw => simp [decode_opD w (op_of_accepts h)]
  | skp | sknp =>
    obtain ⟨hop, hnn⟩ := op_nn_of_accepts h
    rw [decode_opE w hop, decodeFamilyE, hnn]
    simp [Word.nn]
  | addI | ldFont | store | load | ldKey | ldFromDt | ldDt | ldSt =>
    obtain ⟨hop, hnn⟩ := op_nn_of_accepts h
    rw [decode_opF w hop, decodeFamilyF, hnn]
    simp [Word.nn]

/-- One instruction of each row of the map, in the map's order. -/
def Instr.perRow : List Instr :=
  [.cls 0, .ret 0, .jp 0, .call 0, .seImm 0 0, .sneImm 0 0, .seReg 0 0 0, .ldImm 0 0, .addImm 0 0, .ldReg 0 0,
    .orReg 0 0, .andReg 0 0, .xorReg 0 0, .addReg 0 0, .sub 0 0, .shr 0 0, .subn 0 0, .shl 0 0, .sneReg 0 0 0, .ldI 0,
    .jpV0 0, .rnd 0 0, .drw 0 0 0, .addI 0, .ldFont 0, .store 0, .load 0, .ldKey 0, .ldFromDt 0, .ldDt 0, .ldSt 0,
    .sknp 0, .skp 0]

theorem opcodeMap_eq_map_row : opcodeMap = Instr.perRow.map Instr.row := rfl

theorem Instr.exists_row_of_mem_opcodeMap {row : OpcodeRow} (h : row ∈ opcodeMap) : ∃ i : Instr, i.row = row := by
  rw [opcodeMap_eq_map_row] at h
  obtain ⟨i, -, hi⟩ := List.mem_map.mp h
  exact ⟨i, hi⟩

open Laws in
/-- `RowMatch` holds of every constructor, so of every instruction. -/
theorem Instr.row_accepts_encode (i : Instr) : i.row.accepts (encode i) = true :=
  Instr.rec (motive := RowMatch.Statement) RowMatch.cls RowMatch.ret RowMatch.jp RowMatch.call RowMatch.seImm
    RowMatch.sneImm RowMatch.seReg RowMatch.ldImm RowMatch.addImm RowMatch.ldReg RowMatch.orReg RowMatch.andReg
    RowMatch.xorReg RowMatch.addReg RowMatch.sub RowMatch.shr RowMatch.subn RowMatch.shl RowMatch.sneReg RowMatch.ldI
    RowMatch.jpV0 RowMatch.rnd RowMatch.drw RowMatch.addI RowMatch.ldFont RowMatch.store RowMatch.load RowMatch.ldKey
    RowMatch.ldFromDt RowMatch.ldDt RowMatch.ldSt RowMatch.sknp RowMatch.skp i

theorem row_accepts_of_decode {i : Instr} (h : decode w = .ok i) : i.row.accepts w = true :=
  encode_of_decode h ▸ i.row_accepts_encode

theorem opcodeMap_rejects_of_decode {e : DecodeError} (h : decode w = .error e) {row : OpcodeRow} (hr : row ∈ opcodeMap) :
    row.accepts w = false := by
  obtain ⟨i, rfl⟩ := Instr.exists_row_of_mem_opcodeMap hr
  exact Bool.eq_false_iff.mpr fun ha => decode_ne_error_of_row_accepts ha e h

/-- Settles O3: the row of the decoded instruction accepts the word, so no other row does; a word that no instruction has
passes no row. -/
theorem decodeFollowsOpcodeMap : Obligations.DecodeFollowsOpcodeMap := by
  intro w
  constructor
  · intro i hd
    have hacc : i.row.accepts w = true := row_accepts_of_decode hd
    exact ⟨i.row_mem_opcodeMap, hacc, fun row hr h => opcodeMap_accepts_unique hr i.row_mem_opcodeMap h hacc⟩
  · intro hne
    have hd : decode w = .error (.unknownOpcode w) := decode_eq_unknownOpcode hne
    exact ⟨hd, fun row hr => opcodeMap_rejects_of_decode hd hr⟩

end Sys2Proof
end

section
/-! Aliases at work (30_encoding.md R79): no instruction's effect depends on the ignored bits. -/

namespace Sys2Proof.Machine

/-- The four aliases drop their ignored bits on their way into `exec`; every other instruction is its own canonical one. -/
theorem exec_canonical (i : Instr) (s : State) : exec i.canonical s = exec i s := by
  cases i <;> rfl

theorem canonical_wellFormed (i : Instr) : i.canonical.wellFormed = true := by
  cases i <;> rfl

/-- Settles O5. -/
theorem aliasesRunAsCanonical : Obligations.AliasesRunAsCanonical :=
  fun i s => ⟨(exec_canonical i s).symm, canonical_wellFormed i⟩

end Sys2Proof.Machine
end

section
/-! The step at a word that is no instruction (30_encoding.md R76, 60_exceptions.md R171). -/

namespace Sys2Proof.Machine

variable {s : State}

theorem runWord_of_decode_error {w : Word} {e : DecodeError} (h : decode w = .error e) (s : State) :
    runWord w s = halt s (.unknownOpcode w) := by
  simp only [runWord, h]

/-- The halting step, as a state: between-steps changes, `pc` past the word, the status, and the next inputs. -/
theorem step_of_fetch_decode_error {w : Word} {e : DecodeError} (hs : s.status = .running)
    (hf : State.fetch s = .ok w) (hd : decode w = .error e) :
    step s = .next (State.nextInputs (State.raise (State.advancePc (State.betweenSteps s)) (.unknownOpcode w))) := by
  have hf' : State.fetch (State.betweenSteps s) = .ok w := hf
  rw [step_of_running hs, runCycle_of_fetch hf', runWord_of_decode_error hd]
  rfl

/-- Up to 4094 advancing `pc` does not wrap. -/
theorem State.advancePc_pc_toNat (h : s.pc.toNat ≤ 4094) : (State.advancePc s).pc.toNat = s.pc.toNat + 2 := by
  have h2 : (2 : Word).toNat = 2 := rfl
  rw [advancePc_pc, BitVec.toNat_add, h2]
  omega

/-- Settles O16: the fetch succeeds up to 4094, and the state that the step halts in differs from `s` in `pc`, the status
and what falls between steps. -/
theorem unknownOpcodeHalts : Obligations.UnknownOpcodeHalts := by
  rintro s w hs hpc rfl hne
  refine ⟨_, step_of_fetch_decode_error hs (State.fetch_of_pc_le hpc) (decode_eq_unknownOpcode hne), rfl,
    State.advancePc_pc_toNat hpc, fun _ _ => rfl, fun _ => rfl, rfl, rfl, rfl, ?_, ?_, rfl⟩
  · exact Timer.after_toNat s.inputs.ticks s.dt
  · exact Timer.after_toNat s.inputs.ticks s.st

end Sys2Proof.Machine
end

section
/-! Control transfer (40_control_flow.md R100 to R108): what CALL and RET do by what stands on the stack, repeated CALLs, and
the frames of jumps and skips. -/

namespace Sys2Proof.Machine

variable (nnn : Addr12) (s : State)

/-! ### Frames -/

theorem onlyPc_setPc (a : Word) : OnlyPc s (State.setPc s a) := ⟨rfl, fun _ _ => rfl, fun _ => rfl⟩

theorem onlyPc_skipIf (c : Bool) : OnlyPc s (State.skipIf s c) := ⟨rfl, fun _ _ => rfl, fun _ => rfl⟩

theorem onlyHalts_raise (r : HaltReason) : OnlyHalts r s (State.raise s r) := ⟨rfl, fun _ _ => rfl, fun _ => rfl⟩

/-! ### CALL (R102) -/

/-- The state that a CALL with room on the stack leaves. -/
def State.afterCall : State := { s with pc := Operand.addr12 nnn, stack := s.pc :: s.stack }

theorem exec_call_of_lt {s : State} (h : s.stack.length < 16) :
    exec (.call nnn) s = .next (State.afterCall nnn s) := by
  simp only [exec, execCall, State.push_spec, if_pos h]
  rfl

theorem exec_call_of_full {s : State} (h : 16 ≤ s.stack.length) :
    exec (.call nnn) s = .next (State.raise s .stackOverflow) := by
  simp only [exec, execCall, State.push_spec, if_neg (Nat.not_lt.mpr h)]
  rfl

/-- RET pops the entry that CALL pushed, which is the `pc` that CALL met (R100). -/
theorem exec_ret_afterCall (k : Nibble) : exec (.ret k) (State.afterCall nnn s) = .next s := by
  have hpop : State.pop (State.afterCall nnn s) = some (s.pc, { State.afterCall nnn s with stack := s.stack }) :=
    State.pop_cons rfl
  simp only [exec, execRet, hpop]
  rfl

/-- The state after `k` CALLs that all found room on the stack. -/
def State.afterCalls (k : Nat) : State := (State.afterCall nnn)^[k] s

theorem State.afterCalls_succ (k : Nat) :
    State.afterCalls nnn s (k + 1) = State.afterCall nnn (State.afterCalls nnn s k) :=
  Function.iterate_succ_apply' _ k s

theorem State.afterCalls_stack_length (k : Nat) :
    (State.afterCalls nnn s k).stack.length = s.stack.length + k := by
  induction k with
  | zero => rfl
  | succ k ih =>
    rw [State.afterCalls_succ, State.afterCall, List.length_cons, ih, Nat.add_assoc]

theorem State.afterCalls_status (k : Nat) : (State.afterCalls nnn s k).status = s.status := by
  induction k with
  | zero => rfl
  | succ k ih => rw [State.afterCalls_succ, State.afterCall, ih]

end Sys2Proof.Machine
end

section
/-! The statements about control transfer, settled. -/

namespace Sys2Proof.Machine

/-- Settles O25: each CALL adds one entry to the empty stack, so CALL number `k` finds `k` entries there, and the seventeenth
finds 16. -/
theorem seventeenthCallOverflows : Obligations.SeventeenthCallOverflows := by
  intro nnn s hempty
  have hlen (k : Nat) : (State.afterCalls nnn s k).stack.length = k := by
    rw [State.afterCalls_stack_length, hempty, List.length_nil, Nat.zero_add]
  refine ⟨State.afterCalls nnn s, rfl, fun k hk => ⟨?_, State.afterCalls_status nnn s (k + 1)⟩, hlen 16, ?_⟩
  · rw [State.afterCalls_succ]
    exact exec_call_of_lt nnn ((hlen k).trans_lt hk)
  · exact ⟨_, exec_call_of_full nnn (hlen 16).ge, onlyHalts_raise _ _⟩

/-- Settles O22. -/
theorem jumpLoadsTarget : Obligations.JumpLoadsTarget :=
  fun nnn s => ⟨decode_encode (.jp nnn), _, rfl, Operand.addr12_toNat nnn, onlyPc_setPc s _⟩

/-- Settles O23, by whether the stack has room. -/
theorem callPushesOrOverflows : Obligations.CallPushesOrOverflows := by
  intro nnn s
  refine ⟨decode_encode (.call nnn), fun hroom => ?_, fun hfull => ?_⟩
  · exact ⟨_, exec_call_of_lt nnn hroom, Operand.addr12_toNat nnn, rfl, rfl, fun _ _ => rfl, fun _ => rfl⟩
  · exact ⟨_, exec_call_of_full nnn hfull, onlyHalts_raise s _⟩

/-- Settles O24: RET undoes the CALL, whose guard is the statement's hypothesis. -/
theorem callThenReturnRestoresState : Obligations.CallThenReturnRestoresState :=
  fun nnn k s hroom => ⟨_, exec_call_of_lt nnn hroom, exec_ret_afterCall nnn s k⟩

/-- Settles O26: the conditions of SE and SNE as propositions. -/
theorem immediateSkips : Obligations.ImmediateSkips := by
  intro x nn s
  refine ⟨decode_encode (.seImm x nn), decode_encode (.sneImm x nn), ?_, ?_⟩
  · exact ⟨_, rfl, by simp only [skipIf_pc, beq_iff_eq], onlyPc_skipIf s _⟩
  · exact ⟨_, rfl, by simp only [skipIf_pc, bne_iff_ne], onlyPc_skipIf s _⟩

/-- Settles O28: the sum of the two operands fits in 16 bits. -/
theorem jumpV0AddsRegisterZero : Obligations.JumpV0AddsRegisterZero := by
  intro nnn s
  have hpc := Operand.addr12_add_byte16_toNat nnn (State.getV s 0)
  exact ⟨decode_encode (.jpV0 nnn), _, rfl, hpc, onlyPc_setPc s _⟩

end Sys2Proof.Machine
end

section
/-! Register load, ADD with an immediate and the logic operations (41_alu.md R120 to R125): each is one write to `V[x]`. -/

namespace Sys2Proof.Machine

/-- The frame of a register write, for `x = 0xF` too (10_state.md R20). -/
theorem onlyRegs_setV (s : State) (x : Reg) (b : Byte) : OnlyRegs [x] s (State.setV s x b) := by
  refine ⟨rfl, fun r hr => ?_, fun _ => rfl⟩
  have hne : r ≠ x := fun h => hr (List.mem_singleton.mpr h)
  rw [getV_setV, if_neg hne]

/-- Settles O29: both loads write `V[x]`, one the immediate, the other what V[y] held before. -/
theorem registerLoads : Obligations.RegisterLoads := by
  intro x y nn s
  refine ⟨decode_encode (.ldImm x nn), decode_encode (.ldReg x y), ?_, ?_⟩
  · exact ⟨_, rfl, getV_setV_same s x nn, onlyRegs_setV s x _⟩
  · exact ⟨_, rfl, getV_setV_same s x _, onlyRegs_setV s x _⟩

/-- Settles O30: the addition is that of bytes, so it wraps modulo 256 (R132), and its one write is the one to `V[x]`. -/
theorem addImmediateWrapsWithoutFlag : Obligations.AddImmediateWrapsWithoutFlag := by
  intro x nn s
  refine ⟨decode_encode (.addImm x nn), _, rfl, ?_, onlyRegs_setV s x _⟩
  rw [getV_setV_same, BitVec.toNat_add]

/-- Settles O31: each result is the bitwise operation of the two operands, read before the write to `V[x]`. -/
theorem logicIsBitwiseWithoutFlag : Obligations.LogicIsBitwiseWithoutFlag := by
  intro x y s
  refine ⟨decode_encode (.orReg x y), decode_encode (.andReg x y), decode_encode (.xorReg x y), ?_, ?_, ?_⟩
  · exact ⟨_, rfl, onlyRegs_setV s x _, fun k => by rw [getV_setV_same, BitVec.getLsbD_or]⟩
  · exact ⟨_, rfl, onlyRegs_setV s x _, fun k => by rw [getV_setV_same, BitVec.getLsbD_and]⟩
  · exact ⟨_, rfl, onlyRegs_setV s x _, fun k => by rw [getV_setV_same, BitVec.getLsbD_xor]⟩

end Sys2Proof.Machine
end

section
/-! Index loads and block transfers in range (42_index_memory.md R140, R142 to R144). -/

namespace Sys2Proof.Machine

/-- The frame of a write to `I`. -/
theorem onlyIndex_setI (s : State) (a : Word) : OnlyIndex s (State.setI s a) := ⟨rfl, fun _ _ => rfl, fun _ => rfl⟩

/-- A byte outside the addresses `base` to `base + x` is as it was before a block store up to register `x`. -/
theorem Memory.read_storeRegs_of_outside {x : Reg} {base a : Nat} (ha : a < base ∨ base + x.toNat < a) (v : RegFile)
    (m : Memory) : Memory.read (Memory.storeRegs v base 0 (x.toNat + 1) m).1 a = Memory.read m a := by
  rw [(Memory.storeRegs_spec v base 0 (x.toNat + 1) m).1, if_neg (by omega)]

/-- In range, register `r` after a block load up to register `x` is the byte at `base + r`. -/
theorem Memory.get_loadRegs_of_le {x r : Reg} {base : Nat} (hbase : base + x.toNat ≤ 4095) (hr : r.toNat ≤ x.toNat)
    (m : Memory) (v : RegFile) :
    RegFile.get (Memory.loadRegs m base 0 (x.toNat + 1) v).1 r = Memory.read m (base + r.toNat) := by
  rw [(Memory.loadRegs_spec m base 0 (x.toNat + 1) v (by omega)).1, if_pos (by omega)]

/-- A register above `x` is as it was before a block load up to register `x`. -/
theorem Memory.get_loadRegs_of_gt {x r : Reg} (hr : x.toNat < r.toNat) (m : Memory) (base : Nat) (v : RegFile) :
    RegFile.get (Memory.loadRegs m base 0 (x.toNat + 1) v).1 r = RegFile.get v r := by
  rw [(Memory.loadRegs_spec m base 0 (x.toNat + 1) v (by omega)).1, if_neg (by omega)]

/-- In range, Fx65 changes the registers and nothing else. -/
theorem exec_load_of_le {x : Reg} {s : State} (h : s.i.toNat + x.toNat ≤ 4095) :
    exec (.load x) s = .next { s with v := (Memory.loadRegs s.mem s.i.toNat 0 (x.toNat + 1) s.v).1 } := by
  have hload : exec (.load x) s = execLoad x s := rfl
  rw [hload, execLoad_spec]
  exact if_pos (Nat.lt_succ_of_le h)

/-- Settles O41. -/
theorem storeRegistersInRange : Obligations.StoreRegistersInRange := by
  intro x s h
  exact ⟨_, exec_store_of_le h, fun _ hr => Memory.read_storeRegs_of_le h hr s.v s.mem,
    fun _ ha => Memory.read_storeRegs_of_outside ha s.v s.mem, rfl, fun _ _ => rfl⟩

/-- Settles O43. -/
theorem loadRegistersInRange : Obligations.LoadRegistersInRange := by
  intro x s h
  exact ⟨_, exec_load_of_le h, fun _ hr => Memory.get_loadRegs_of_le h hr s.mem s.v,
    fun _ hr => Memory.get_loadRegs_of_gt hr s.mem s.i.toNat s.v, rfl, fun _ => rfl⟩

/-- Settles O45: Fx55 leaves `I` alone, so the load reads, for each register up to `x`, the byte that the store wrote there. -/
theorem storeThenLoadRestoresRegisters : Obligations.StoreThenLoadRestoresRegisters := by
  intro x s between h
  obtain ⟨t, hstore, hstored, -, hframe, -⟩ := storeRegistersInRange x s h
  have hi : t.i = s.i := by rw [hframe]
  obtain ⟨u, hload, hloaded, habove, -, hmem⟩ := loadRegistersInRange x { t with v := between } (hi ▸ h)
  refine ⟨t, u, hstore, hload, fun r hr => ?_, habove, hmem⟩
  calc State.getV u r
    _ = Memory.read t.mem (t.i.toNat + r.toNat) := hloaded r hr
    _ = State.getV s r := by rw [hi, hstored r hr]

/-- Settles O38. -/
theorem loadIndex : Obligations.LoadIndex :=
  fun nnn s => ⟨decode_encode (.ldI nnn), _, rfl, Operand.addr12_toNat nnn, onlyIndex_setI s _⟩

/-- Settles O40: the glyph number is at most 15 and `FONT_BASE` at most 432, which gives the bounds. -/
theorem fontAddressOfLowNibble : Obligations.FontAddressOfLowNibble := by
  intro x s
  have haddr := Operand.fontAddr_toNat (State.getV s x)
  have hbase := Config.fontBase.isLt
  refine ⟨decode_encode (.ldFont x), State.setI s (Operand.fontAddr (State.getV s x)), rfl, ?_⟩
  rw [setI_i]
  exact ⟨haddr, by omega, by omega, by omega, onlyIndex_setI s _⟩

end Sys2Proof.Machine
end

section
/-! Transfers between the registers and the timers (44_timers_keys.md R160, R162, R163). -/

namespace Sys2Proof.Machine

/-- Settles O51: Fx07 is the one write to `V[x]`; Fx15 and Fx18 each write one timer, so registers and memory read as before. -/
theorem timerTransfers : Obligations.TimerTransfers := by
  intro x s
  refine ⟨decode_encode (.ldFromDt x), decode_encode (.ldDt x), decode_encode (.ldSt x), ?_, ?_, ?_⟩
  · exact ⟨_, rfl, getV_setV_same s x s.dt, onlyRegs_setV s x s.dt⟩
  · exact ⟨State.setDt s (State.getV s x), rfl, setDt_dt s _, rfl, fun r _ => getV_setDt s _ r, fun _ => rfl⟩
  · exact ⟨State.setSt s (State.getV s x), rfl, setSt_st s _, rfl, fun r _ => getV_setSt s _ r, fun _ => rfl⟩

end Sys2Proof.Machine
end

section
/-! Which instruction can raise which condition (60_exceptions.md R170 to R174, R179), read off the effects of `exec`. -/

namespace Sys2Proof.Machine

/-- `CanRaise i r`: executing `i` may raise `r`. No constructor names `unknownOpcode`, which is decode's (R171); an address is
reported only if it does not exist (R172). -/
inductive CanRaise : Instr → HaltReason → Prop
  | ret (k : Nibble) : CanRaise (.ret k) .stackUnderflow
  | call (nnn : Addr12) : CanRaise (.call nnn) .stackOverflow
  | store (x : Reg) {a : Nat} (ha : 4096 ≤ a) : CanRaise (.store x) (.outOfBounds a)
  | load (x : Reg) {a : Nat} (ha : 4096 ≤ a) : CanRaise (.load x) (.outOfBounds a)
  | drw (x y : Reg) (n : Nibble) {a : Nat} (ha : 4096 ≤ a) : CanRaise (.drw x y n) (.outOfBounds a)

variable {s t : State} {i : Instr}

/-- What an instruction can do to the status (10_state.md R34): nothing, begin a wait for a key, or halt. -/
theorem ExecEffect.status_eq (h : ExecEffect s i t) :
    t.status = s.status ∨ (∃ x, i = .ldKey x ∧ t.status = .waitingForKey x) ∨
      ∃ r, t.status = .halted r ∧ CanRaise i r := by
  cases h with
  | ldKey x => exact .inr (.inl ⟨x, rfl, rfl⟩)
  | retEmpty k => exact .inr (.inr ⟨_, rfl, .ret k⟩)
  | callFull nnn => exact .inr (.inr ⟨_, rfl, .call nnn⟩)
  | storeFault x => exact .inr (.inr ⟨_, rfl, .store x (Nat.le_max_right ..)⟩)
  | loadFault x => exact .inr (.inr ⟨_, rfl, .load x (Nat.le_max_right ..)⟩)
  | drwFault x y => exact .inr (.inr ⟨_, rfl, .drw x y _ (Nat.le_max_right ..)⟩)
  | _ => exact .inl rfl

/-- An instruction that meets a running machine and leaves it halted has raised the reason itself. -/
theorem canRaise_of_exec_halted {r : HaltReason} (hs : s.status = .running) (h : exec i s = .next t)
    (hr : t.status = .halted r) : CanRaise i r := by
  obtain e | ⟨x, -, e⟩ | ⟨r', e, hraise⟩ := (ExecEffect.of_exec h).status_eq
  · rw [e, hs] at hr
    cases hr
  · rw [e] at hr
    cases hr
  · rw [e] at hr
    cases hr
    exact hraise

/-- Settles O57, condition by condition: the raisers of each are the constructors of `CanRaise` that name it. -/
theorem eachConditionHasItsRaisers : Obligations.EachConditionHasItsRaisers := by
  intro i s t hs h
  refine ⟨fun hr => ?_, fun hr => ?_, fun a hr => ?_, fun w hr => ?_⟩
  · cases canRaise_of_exec_halted hs h hr with
    | ret k => exact ⟨k, rfl⟩
  · cases canRaise_of_exec_halted hs h hr with
    | call nnn => exact ⟨nnn, rfl⟩
  · cases canRaise_of_exec_halted hs h hr with
    | store x ha => exact ⟨ha, .inl ⟨x, rfl⟩⟩
    | load x ha => exact ⟨ha, .inr (.inl ⟨x, rfl⟩)⟩
    | drw x y n ha => exact ⟨ha, .inr (.inr ⟨x, y, n, rfl⟩)⟩
  · cases canRaise_of_exec_halted hs h hr

end Sys2Proof.Machine
end

section
/-! The step by status (30_encoding.md R73), forwards: what it answers when it does not get to an instruction, that it always
answers, and how the status moves (10_state.md R34). -/

namespace Sys2Proof.Machine

variable {s t : State}

theorem step_of_halted {r : HaltReason} (h : s.status = .halted r) : step s = .next s := by
  simp only [step, cycle, h]

theorem step_of_waiting {x : Reg} (h : s.status = .waitingForKey x) :
    step s = .next (State.nextInputs (State.sampleKey (State.betweenSteps s) x)) := by
  simp only [step, cycle, h, withNextInputs]

/-- The step of a fetch that fails: what falls between steps, the status, and the next inputs. -/
theorem step_of_fetch_error {a : Nat} (hs : s.status = .running) (hf : State.fetch s = .error a) :
    step s = .next (State.nextInputs (State.raise (State.betweenSteps s) (.outOfBounds a))) := by
  have hf' : State.fetch (State.betweenSteps s) = .error a := hf
  simp only [step_of_running hs, runCycle, hf', halt, withNextInputs]

/-- Settles O17, by status and by how far the cycle gets. -/
theorem stepAlwaysAnswersNext : Obligations.StepAlwaysAnswersNext := by
  intro s
  cases hs : s.status with
  | halted r => exact ⟨_, step_of_halted hs⟩
  | waitingForKey x => exact ⟨_, step_of_waiting hs⟩
  | running =>
    cases hf : State.fetch s with
    | error a => exact ⟨_, step_of_fetch_error hs hf⟩
    | ok w =>
      cases hd : decode w with
      | error e => exact ⟨_, step_of_fetch_decode_error hs hf hd⟩
      | ok i =>
        obtain ⟨t, ht⟩ := exec_next (State.advancePc (State.betweenSteps s)) i
        exact ⟨State.nextInputs t, by rw [step_of_fetch_decode hs hf hd, ht]; rfl⟩

/-- Settles O13. -/
theorem haltedStepChangesNothing : Obligations.HaltedStepChangesNothing := fun _ _ h => step_of_halted h

/-! ### The waiting step (44_timers_keys.md R161) -/

/-- A key sample of 4 bits is written to the register as the same number. -/
theorem toNat_setWidth_key (k : Nibble) : (k.setWidth 8).toNat = k.toNat := by
  rw [BitVec.toNat_setWidth]
  omega

theorem sameRegsExcept_setV (s : State) (x : Reg) (b : Byte) : SameRegsExcept [x] s (State.setV s x b) := by
  obtain ⟨-, hregs, -⟩ := onlyRegs_setV s x b
  exact hregs

/-- Settles O14: what falls between steps accounts for the timers and `dirty`, and the key sample, if there is one, for the
status and the target register. -/
theorem waitingStepSamplesKey : Obligations.WaitingStepSamplesKey := by
  intro s x hs
  have hdt := Timer.after_toNat s.inputs.ticks s.dt
  have hst := Timer.after_toNat s.inputs.ticks s.st
  have hstep := step_of_waiting hs
  cases hk : s.inputs.key with
  | none =>
    have hk' : (State.betweenSteps s).inputs.key = none := hk
    rw [State.sampleKey_none hk'] at hstep
    exact ⟨_, hstep, rfl, rfl, rfl, rfl, fun _ => rfl, hdt, hst, rfl, fun _ => ⟨hs, fun _ _ => rfl⟩, nofun⟩
  | some k =>
    have hk' : (State.betweenSteps s).inputs.key = some k := hk
    rw [State.sampleKey_some hk'] at hstep
    refine ⟨_, hstep, rfl, rfl, rfl, rfl, fun _ => rfl, hdt, hst, rfl, nofun, ?_⟩
    rintro _ ⟨⟩
    refine ⟨rfl, ?_, sameRegsExcept_setV (State.betweenSteps s) x _⟩
    exact (congrArg BitVec.toNat (getV_setV_same (State.betweenSteps s) x _)).trans (toNat_setWidth_key k)

/-! ### How the status moves (10_state.md R34) -/

theorem State.sampleKey_status (s : State) (x : Reg) :
    (State.sampleKey s x).status = s.status ∨
      ((State.sampleKey s x).status = .running ∧ ∃ k, s.inputs.key = some k) := by
  cases hk : s.inputs.key with
  | none => exact .inl (by rw [State.sampleKey_none hk])
  | some k => exact .inr ⟨by rw [State.sampleKey_some hk], k, rfl⟩

theorem status_of_step_halted {r : HaltReason} (hs : s.status = .halted r) (h : step s = .next t) :
    t.status = .halted r := by
  cases (step_of_halted hs).symm.trans h
  exact hs

theorem status_of_step_waiting {x : Reg} (hs : s.status = .waitingForKey x) (h : step s = .next t) :
    t.status = .waitingForKey x ∨ (t.status = .running ∧ ∃ k, s.inputs.key = some k) := by
  cases (step_of_waiting hs).symm.trans h
  exact (State.sampleKey_status (State.betweenSteps s) x).imp_left fun e => e.trans hs

/-- An instruction that begins a wait is Fx0A for the register waited for. -/
theorem eq_ldKey_of_exec_waiting {i : Instr} {x : Reg} (hs : s.status = .running) (h : exec i s = .next t)
    (ht : t.status = .waitingForKey x) : i = .ldKey x := by
  obtain e | ⟨y, hi, e⟩ | ⟨r, e, -⟩ := (ExecEffect.of_exec h).status_eq
  · rw [e, hs] at ht
    cases ht
  · rw [e] at ht
    cases ht
    exact hi
  · rw [e] at ht
    cases ht

/-- Of all that a step can do, only an instruction begins a wait. -/
theorem fetches_ldKey_of_step_waiting {x : Reg} (h : step s = .next t) (hs : s.status ≠ .waitingForKey x)
    (ht : t.status = .waitingForKey x) :
    s.status = .running ∧ ∃ w, State.fetch s = .ok w ∧ decode w = .ok (.ldKey x) := by
  obtain ⟨r, -, rfl⟩ | ⟨y, hy, rfl⟩ | ⟨-, a, -, rfl⟩ | ⟨-, w, e, -, -, rfl⟩ |
    ⟨hrun, w, i, u, hf, hd, hu, rfl⟩ := step_cases h
  · exact absurd ht hs
  · obtain e | ⟨e, -⟩ := State.sampleKey_status (State.betweenSteps s) y
    · exact absurd (e.symm.trans ht) hs
    · cases e.symm.trans ht
  · cases ht
  · cases ht
  · have hrun' : (State.advancePc (State.betweenSteps s)).status = .running := hrun
    cases eq_ldKey_of_exec_waiting hrun' hu ht
    exact ⟨hrun, w, hf, hd⟩

/-- Settles O56, by the status before the step. -/
theorem statusMovesOnlyAsListed : Obligations.StatusMovesOnlyAsListed := fun _ _ h =>
  ⟨fun _ hs => status_of_step_halted hs h, fun _ hs => status_of_step_waiting hs h,
    fun _ hs ht => fetches_ldKey_of_step_waiting h hs ht⟩

/-! ### The fetch (20_memory.md R52, R53) -/

/-- From 4095 on one of the two bytes does not exist. -/
theorem State.fetch_of_pc_ge (h : 4095 ≤ s.pc.toNat) : State.fetch s = .error (max s.pc.toNat 4096) := by
  rw [State.fetch_eq, if_neg (by omega)]

/-- A word as a number: the lower-addressed byte counts 256 times. -/
theorem toNat_append_bytes (hi lo : Byte) : (hi ++ lo).toNat = 256 * hi.toNat + lo.toNat := by
  rw [BitVec.toNat_append, ← Nat.shiftLeft_add_eq_or_of_lt lo.isLt, Nat.shiftLeft_eq, Nat.mul_comm]

/-- Settles O11. -/
theorem fetchIsBigEndian : Obligations.FetchIsBigEndian := fun _ =>
  ⟨fun h => ⟨_, State.fetch_of_pc_le h, toNat_append_bytes _ _⟩, State.fetch_of_pc_ge⟩

/-- Settles O15: the state that the step halts in differs from `s` in the status and what falls between steps. -/
theorem fetchFaultHalts : Obligations.FetchFaultHalts := by
  intro s hs hpc
  refine ⟨_, step_of_fetch_error hs (State.fetch_of_pc_ge hpc), rfl, rfl, fun _ _ => rfl, fun _ => rfl, rfl, rfl, rfl,
    ?_, ?_, rfl⟩
  · exact Timer.after_toNat s.inputs.ticks s.dt
  · exact Timer.after_toNat s.inputs.ticks s.st

/-! ### The parked state (70_reset_and_hazards.md R200) -/

/-- From a parked state the step is a jump to where `pc` was, between the changes that every step makes. -/
theorem step_of_parked {nnn : Addr12} (h : State.parked s nnn) :
    step s = .next (State.nextInputs (State.setPc (State.advancePc (State.betweenSteps s)) s.pc)) := by
  obtain ⟨hs, hf, hpc⟩ := h
  have htarget : Operand.addr12 nnn = s.pc := BitVec.eq_of_toNat_eq ((Operand.addr12_toNat nnn).trans hpc.symm)
  rw [step_of_fetch_decode hs hf (decode_encode (.jp nnn)), ← htarget]
  rfl

/-- Settles O60: the status, the bytes and `pc`, of which `State.parked` speaks, are as they were. -/
theorem parkedStateStaysParked : Obligations.ParkedStateStaysParked := fun _ _ h =>
  ⟨_, step_of_parked h, h, fun _ _ => rfl, fun _ => rfl, rfl⟩

end Sys2Proof.Machine
end

section
/-! The machine at reset (10_state.md R35, R40, 70_reset_and_hazards.md R194): memory lists nothing, so it reads as its reset
contents. -/

namespace Sys2Proof.Machine

/-- The font copy lies below `PROG_BASE` wherever `FONT_BASE` places it, so it is not cut off by the test in
`Memory.resetByte`. -/
theorem Memory.resetByte_font {k : Nat} (h : k < 80) :
    Memory.resetByte (Config.fontBase.val + k) = Config.fontData[k] := by
  have hbase := Config.fontBase.isLt
  have hlow : ¬ Config.progBase ≤ Config.fontBase.val + k := by
    simp only [Config.progBase]
    omega
  have hin : Config.fontBase.val ≤ Config.fontBase.val + k ∧ Config.fontBase.val + k < Config.fontBase.val + 80 := by
    omega
  simp only [Memory.resetByte, if_neg hlow, dif_pos hin, Nat.add_sub_cancel_left]

theorem Memory.resetByte_outside_font {a : Nat} (h : a < Config.fontBase.val ∨ Config.fontBase.val + 80 ≤ a) :
    Memory.resetByte a = 0 := by
  have hout : ¬ (Config.fontBase.val ≤ a ∧ a < Config.fontBase.val + 80) := by omega
  simp only [Memory.resetByte, dif_neg hout, ite_self]

/-- Settles O6. -/
theorem resetStatedValues : Obligations.ResetStatedValues :=
  ⟨rfl, Display.pixel_blank, fun _ hk => Memory.resetByte_font hk, rfl⟩

/-- Settles O7. -/
theorem resetDecidedValues : Obligations.ResetDecidedValues :=
  ⟨RegFile.get_zeros, rfl, rfl, rfl, fun _ ha => Memory.resetByte_outside_font ha, rfl, rfl⟩

/-- Settles O9: the bytes at 0x200 read 0, and the word 0x0000 does not decode. -/
theorem firstStepWithNothingLoaded : Obligations.FirstStepWithNothingLoaded := by
  have hf : State.fetch State.reset = .ok 0x0000 := rfl
  have hd : decode 0x0000 = .error (.unknownOpcode 0x0000) := by decide
  exact ⟨_, step_of_fetch_decode_error rfl hf hd, rfl, rfl⟩

end Sys2Proof.Machine
end

section
/-! Timers and the tone (60_exceptions.md R182 to R184). -/

namespace Sys2Proof.Machine

variable (s : State)

/-- Settles O18. -/
theorem tickFloorsBothTimers : Obligations.TickFloorsBothTimers := fun s =>
  ⟨Timer.dec_toNat s.dt, Timer.dec_toNat s.st, rfl, fun _ _ => rfl, fun _ => rfl⟩

theorem Timer.after_zero (t : Byte) : Timer.after 0 t = t :=
  BitVec.eq_of_toNat_eq (Timer.after_toNat 0 t)

theorem Timer.after_succ (n : Nat) (t : Byte) : Timer.after (n + 1) t = Timer.after n (Timer.dec t) := by
  apply BitVec.eq_of_toNat_eq
  rw [Timer.after_toNat, Timer.after_toNat, Timer.dec_toNat]
  omega

theorem State.advanceTimers_zero : State.advanceTimers s 0 = s := by
  rw [State.advanceTimers, Timer.after_zero, Timer.after_zero]

theorem State.advanceTimers_succ (n : Nat) :
    State.advanceTimers s (n + 1) = State.advanceTimers (State.tick s) n := by
  rw [State.advanceTimers, Timer.after_succ, Timer.after_succ]
  rfl

/-- Settles O19, by induction on the number of ticks, the first of them split off. -/
theorem advanceTimersIsRepeatedTicks : Obligations.AdvanceTimersIsRepeatedTicks := by
  intro n
  induction n with
  | zero => exact State.advanceTimers_zero
  | succ n ih =>
    intro s
    rw [State.advanceTimers_succ, ih]
    rfl

theorem State.tick_st_toNat : (State.tick s).st.toNat = s.st.toNat - 1 := Timer.dec_toNat s.st

/-- Settles O20, by induction on the number of ticks: while the sound timer is above 0 the first tick sounds and takes 1 off
it, and at 0 it is silent and leaves it there. -/
theorem toneLastsAsManyTicksAsWritten : Obligations.ToneLastsAsManyTicksAsWritten := by
  intro s n
  induction n generalizing s with
  | zero => rw [Nat.zero_min, Nat.zero_sub]; rfl
  | succ n ih =>
    rw [State.toneTrace, ih, State.tick_st_toNat]
    cases hst : s.st.toNat with
    | zero => simp [State.toneThisTick, hst, List.replicate_succ]
    | succ v =>
      simp [State.toneThisTick, hst, Nat.succ_min_succ, List.replicate_succ]

end Sys2Proof.Machine
end

section
/-! RET and the skips (40_control_flow.md R100, R105, R106; 44_timers_keys.md R164 to R166), and the other instructions whose
one write is to `pc`, the status or the display. -/

namespace Sys2Proof.Machine

variable {s : State} (k : Nibble)

theorem exec_ret_of_cons {a : Word} {rest : List Word} (h : s.stack = a :: rest) :
    exec (.ret k) s = .next { s with pc := a, stack := rest } := by
  simp only [exec, execRet, State.pop_cons h]
  rfl

theorem exec_ret_of_nil (h : s.stack = []) : exec (.ret k) s = .next (State.raise s .stackUnderflow) := by
  simp only [exec, execRet, State.pop_nil h]
  rfl

/-- Settles O21, by what stands on the stack. -/
theorem returnPopsOrUnderflows : Obligations.ReturnPopsOrUnderflows := by
  intro k s
  refine ⟨fun a rest hs => ?_, fun hs => ?_⟩
  · exact ⟨_, exec_ret_of_cons k hs, rfl, rfl, rfl, fun _ _ => rfl, fun _ => rfl⟩
  · exact ⟨_, exec_ret_of_nil k hs, onlyHalts_raise s _⟩

/-- Settles O27: the conditions of SE and SNE as propositions. -/
theorem registerSkips : Obligations.RegisterSkips := by
  intro x y k s
  refine ⟨?_, ?_⟩
  · exact ⟨_, rfl, by simp only [skipIf_pc, beq_iff_eq], onlyPc_skipIf s _⟩
  · exact ⟨_, rfl, by simp only [skipIf_pc, bne_iff_ne], onlyPc_skipIf s _⟩

theorem skipIf_pc_of_true {c : Bool} (h : c = true) : (State.skipIf s c).pc = s.pc + 2 := by simp [h]

theorem skipIf_pc_of_false {c : Bool} (h : c = false) : (State.skipIf s c).pc = s.pc := by simp [h]

/-- The key sample is not the number `v`: there is none, or another. -/
theorem State.pressed_eq_false_iff (s : State) (v : Byte) :
    State.pressed s v = false ↔ ¬ ∃ k, s.inputs.key = some k ∧ k.toNat = v.toNat := by
  rw [← Bool.not_eq_true, State.pressed_iff]

/-- Settles O53: both skips branch on `pressed`, which compares the whole register. -/
theorem keySkipsCompareAllBits : Obligations.KeySkipsCompareAllBits := by
  intro x s
  have hpressed := State.pressed_iff s (State.getV s x)
  have hreleased := State.pressed_eq_false_iff s (State.getV s x)
  refine ⟨⟨_, rfl, onlyPc_skipIf s _, fun h => ?_, fun h => ?_⟩, ⟨_, rfl, onlyPc_skipIf s _, fun h => ?_, fun h => ?_⟩⟩
  · exact skipIf_pc_of_true (hpressed.mpr h)
  · exact skipIf_pc_of_false (hreleased.mpr h)
  · exact skipIf_pc_of_false (by rw [hpressed.mpr h]; rfl)
  · exact skipIf_pc_of_true (by rw [hreleased.mpr h]; rfl)

/-- Settles O52. -/
theorem waitForKeyEntersWaiting : Obligations.WaitForKeyEntersWaiting := fun _ _ =>
  ⟨_, rfl, rfl, rfl, fun _ _ => rfl, fun _ => rfl⟩

/-- Settles O47. -/
theorem clearScreenClearsEveryPixel : Obligations.ClearScreenClearsEveryPixel := fun _ _ =>
  ⟨_, rfl, Display.pixel_blank, rfl, fun _ _ => rfl, fun _ => rfl⟩

end Sys2Proof.Machine
end

section
/-! The instructions that write a flag and a result, RND, and ADD I (41_alu.md R126 to R132, 42_index_memory.md R141). -/

namespace Sys2Proof.Machine

variable (s : State) (x : Reg)

/-! ### The two writes (10_state.md R22) -/

theorem getV_setFlagAndResult_same (f b : Byte) : State.getV (State.setFlagAndResult s f x b) x = b := by
  rw [getV_setFlagAndResult, if_pos rfl]

/-- The flag survives the write of the result unless that goes to VF too. -/
theorem getV_setFlagAndResult_regF {x : Reg} (hx : x ≠ 0xF) (f b : Byte) :
    State.getV (State.setFlagAndResult s f x b) 0xF = f := by
  rw [getV_setFlagAndResult, if_neg (Ne.symm hx), if_pos rfl]

theorem onlyRegs_setFlagAndResult (f b : Byte) : OnlyRegs [x, 0xF] s (State.setFlagAndResult s f x b) := by
  refine ⟨rfl, fun r hr => ?_, fun _ => rfl⟩
  obtain ⟨hx, hF⟩ : r ≠ x ∧ r ≠ 0xF := by simpa using hr
  rw [getV_setFlagAndResult, if_neg hx, if_neg hF]

/-! ### Flags as conditions (10_state.md R21) -/

theorem Flag.ofBool_decide (p : Prop) [Decidable p] : Flag.ofBool (decide p) = if p then 1 else 0 := by
  simp only [Flag.ofBool, decide_eq_true_eq]

theorem Flag.lowBit_eq (a : Byte) : Flag.lowBit a = if a.toNat % 2 = 1 then 1 else 0 := by
  rw [Flag.lowBit, ← BitVec.testBit_toNat, Nat.testBit_zero, Flag.ofBool_decide]

theorem Flag.highBit_eq (a : Byte) : Flag.highBit a = if 128 ≤ a.toNat then 1 else 0 := by
  have hbit : a.getLsbD 7 = decide (128 ≤ a.toNat) := BitVec.getLsbD_last a
  rw [Flag.highBit, hbit, Flag.ofBool_decide]

/-! ### Arithmetic and shifts -/

/-- Settles O32. -/
theorem addRegisterSetsCarry : Obligations.AddRegisterSetsCarry := by
  intro x y s
  refine ⟨_, rfl, ?_, fun hx => ?_, onlyRegs_setFlagAndResult s x _ _⟩
  · rw [getV_setFlagAndResult_same, BitVec.toNat_add]
  · rw [getV_setFlagAndResult_regF s hx, Flag.carry, Flag.ofBool_decide]

/-- Byte subtraction is the integer difference modulo 256 (R132). -/
theorem byte_sub_toNat (a b : Byte) : ((a - b).toNat : Int) = (a.toNat - b.toNat : Int) % 256 := by
  rw [BitVec.toNat_sub]
  omega

/-- What SUB and SUBN share: minuend `a`, subtrahend `b`, result to `x`. -/
theorem setFlagAndResult_sub (a b : Byte) :
    ((State.getV (State.setFlagAndResult s (Flag.greater a b) x (a - b)) x).toNat : Int)
        = (a.toNat - b.toNat : Int) % 256 ∧
      (x ≠ 0xF → State.getV (State.setFlagAndResult s (Flag.greater a b) x (a - b)) 0xF
        = if b.toNat < a.toNat then 1 else 0) ∧
      OnlyRegs [x, 0xF] s (State.setFlagAndResult s (Flag.greater a b) x (a - b)) := by
  refine ⟨?_, fun hx => ?_, onlyRegs_setFlagAndResult s x _ _⟩
  · rw [getV_setFlagAndResult_same, byte_sub_toNat]
  · rw [getV_setFlagAndResult_regF s hx, Flag.greater, Flag.ofBool_decide]

/-- Settles O33. -/
theorem subtractsSetStrictFlag : Obligations.SubtractsSetStrictFlag := fun x y s =>
  ⟨⟨_, rfl, setFlagAndResult_sub s x (State.getV s x) (State.getV s y)⟩,
    ⟨_, rfl, setFlagAndResult_sub s x (State.getV s y) (State.getV s x)⟩⟩

/-- Settles O34: a shift by one bit halves or doubles, and the bit shifted out is bit 0 or bit 7. -/
theorem shiftsTakeSourceFromVy : Obligations.ShiftsTakeSourceFromVy := by
  intro x y s
  constructor
  · refine ⟨_, rfl, ?_, fun hx => ?_, onlyRegs_setFlagAndResult s x _ _⟩
    · rw [getV_setFlagAndResult_same, BitVec.toNat_ushiftRight, Nat.shiftRight_one]
    · rw [getV_setFlagAndResult_regF s hx, Flag.lowBit_eq]
  · refine ⟨_, rfl, ?_, fun hx => ?_, onlyRegs_setFlagAndResult s x _ _⟩
    · rw [getV_setFlagAndResult_same, BitVec.toNat_shiftLeft, Nat.shiftLeft_eq]
    · rw [getV_setFlagAndResult_regF s hx, Flag.highBit_eq]

/-! ### RND (R131) -/

theorem exec_rnd (nn : Byte) :
    exec (.rnd x nn) s = .next (State.setV s x (nn &&& Operand.draw nn s.inputs.rnd)) := rfl

/-- Settles O35. -/
theorem randomByteIsMaskedDraw : Obligations.RandomByteIsMaskedDraw := by
  intro x nn s
  refine ⟨_, exec_rnd s x nn, onlyRegs_setV s x _, ⟨_, Operand.draw_le nn s.inputs.rnd, getV_setV_same s x _⟩, fun h => ?_⟩
  rw [getV_setV_same, Operand.draw_of_le h]

/-- A bitwise subset of `nn` is at most `nn`, so it can be drawn. -/
theorem toNat_le_of_and_eq {nn b : Byte} (h : b &&& nn = b) : b.toNat ≤ nn.toNat := by
  rw [← h, BitVec.toNat_and]
  exact Nat.and_le_right

/-- Settles O36: a masked byte is a subset of the mask, and a subset of `nn` is what comes out when it is the random input. -/
theorem randomResultsAreExactlyTheSubsets : Obligations.RandomResultsAreExactlyTheSubsets := by
  intro x nn target s
  constructor
  · rintro ⟨r, t, he, rfl⟩
    rw [exec_rnd] at he
    cases he
    rw [getV_setV_same, BitVec.and_comm, ← BitVec.and_assoc, BitVec.and_self]
  · intro h
    refine ⟨target, _, exec_rnd _ x nn, ?_⟩
    rw [getV_setV_same, Operand.draw_of_le (toNat_le_of_and_eq h), BitVec.and_comm, h]

/-! ### ADD I (42_index_memory.md R141) -/

theorem State.addIndex_i_toNat (setsVf : Bool) :
    (State.addIndex s x setsVf).i.toNat = (s.i.toNat + (State.getV s x).toNat) % 65536 := by
  cases setsVf <;> exact BitVec.toNat_ofNat ..

/-- Settles O39, for the parameter on and off. -/
theorem addIndexWrapsAndFlags : Obligations.AddIndexWrapsAndFlags := by
  intro x s
  refine ⟨⟨State.addIndex s x true, rfl, State.addIndex_i_toNat s x true, ?_, rfl, ?_, fun _ => rfl⟩,
    State.addIndex_i_toNat s x false, onlyIndex_setI s _⟩
  · exact (getV_setV_same ..).trans (Flag.ofBool_decide _)
  · exact sameRegsExcept_setV (State.setI s _) 0xF _

end Sys2Proof.Machine
end

section
/-! Block transfers out of range (42_index_memory.md R143, R144, R172 b), and the host's load (20_memory.md R59). -/

namespace Sys2Proof.Machine

/-! ### Fx55 and Fx65 -/

variable {x : Reg} {s : State}

/-- Out of range, Fx55 changes what the block store reaches, and halts. -/
theorem exec_store_of_gt (h : 4095 < s.i.toNat + x.toNat) :
    exec (.store x) s = .next (State.raise { s with mem := (Memory.storeRegs s.v s.i.toNat 0 (x.toNat + 1) s.mem).1 }
      (.outOfBounds (max s.i.toNat 4096))) := by
  have hstore : exec (.store x) s = execStore x s := rfl
  rw [hstore, execStore_spec]
  exact if_neg (by omega)

/-- Out of range, Fx65 changes what the block load reaches, and halts. -/
theorem exec_load_of_gt (h : 4095 < s.i.toNat + x.toNat) :
    exec (.load x) s = .next (State.raise { s with v := (Memory.loadRegs s.mem s.i.toNat 0 (x.toNat + 1) s.v).1 }
      (.outOfBounds (max s.i.toNat 4096))) := by
  have hload : exec (.load x) s = execLoad x s := rfl
  rw [hload, execLoad_spec]
  exact if_neg (by omega)

/-- A block store writes the byte of each register up to `x` whose address exists. -/
theorem Memory.read_storeRegs_of_exists {r : Reg} {base : Nat} (hr : r.toNat ≤ x.toNat) (hb : base + r.toNat ≤ 4095)
    (v : RegFile) (m : Memory) :
    Memory.read (Memory.storeRegs v base 0 (x.toNat + 1) m).1 (base + r.toNat) = RegFile.get v r := by
  rw [(Memory.storeRegs_spec v base 0 (x.toNat + 1) m).1, if_pos (by omega), Nat.add_sub_cancel_left,
    BitVec.ofNat_toNat, BitVec.setWidth_eq]

/-- A block store writes no byte below `base` and none above 4095. -/
theorem Memory.read_storeRegs_of_unreached {a base : Nat} (ha : a < base ∨ 4095 < a) (v : RegFile) (m : Memory) :
    Memory.read (Memory.storeRegs v base 0 (x.toNat + 1) m).1 a = Memory.read m a := by
  rw [(Memory.storeRegs_spec v base 0 (x.toNat + 1) m).1, if_neg (by omega)]

/-- A block load reads each register up to `x` whose address exists. -/
theorem Memory.get_loadRegs_of_exists {r : Reg} {base : Nat} (hr : r.toNat ≤ x.toNat) (hb : base + r.toNat ≤ 4095)
    (m : Memory) (v : RegFile) :
    RegFile.get (Memory.loadRegs m base 0 (x.toNat + 1) v).1 r = Memory.read m (base + r.toNat) := by
  rw [(Memory.loadRegs_spec m base 0 (x.toNat + 1) v (by omega)).1, if_pos (by omega)]

/-- A block load leaves the registers above `x` and those whose address does not exist. -/
theorem Memory.get_loadRegs_of_unreached {r : Reg} {base : Nat} (h : x.toNat < r.toNat ∨ 4095 < base + r.toNat)
    (m : Memory) (v : RegFile) :
    RegFile.get (Memory.loadRegs m base 0 (x.toNat + 1) v).1 r = RegFile.get v r := by
  rw [(Memory.loadRegs_spec m base 0 (x.toNat + 1) v (by omega)).1, if_neg (by omega)]

/-- Settles O42. -/
theorem storeRegistersOutOfRange : Obligations.StoreRegistersOutOfRange := by
  intro x s h
  exact ⟨_, exec_store_of_gt h, rfl, fun _ hb hr => Memory.read_storeRegs_of_exists hr hb s.v s.mem,
    fun _ ha => Memory.read_storeRegs_of_unreached ha s.v s.mem, rfl, fun _ _ => rfl⟩

/-- Settles O44. -/
theorem loadRegistersOutOfRange : Obligations.LoadRegistersOutOfRange := by
  intro x s h
  exact ⟨_, exec_load_of_gt h, rfl, fun _ hr hb => Memory.get_loadRegs_of_exists hr hb s.mem s.v,
    fun _ hr => Memory.get_loadRegs_of_unreached hr s.mem s.v, rfl, fun _ => rfl⟩

/-! ### The host's load -/

variable {image : List Byte}

theorem loadImage_of_gt (h : 3584 < image.length) (s : State) : loadImage image s = .error .loadTooLarge := by
  have hlarge : Config.memSize < Config.progBase + image.length := by simp only [Config.memSize, Config.progBase]; omega
  simp only [loadImage, Memory.load, if_pos hlarge]

theorem loadImage_of_le (h : image.length ≤ 3584) (s : State) :
    loadImage image s = .ok { s with mem := Memory.writeBytes s.mem 0x200 image } := by
  have hfits : ¬ Config.memSize < Config.progBase + image.length := by simp only [Config.memSize, Config.progBase]; omega
  simp only [loadImage, Memory.load, if_neg hfits]
  rfl

/-- Byte `j` of what the host wrote. -/
theorem Memory.read_writeBytes_image (m : Memory) (a : Nat) {j : Nat} (hj : j < image.length) :
    Memory.read (Memory.writeBytes m a image) (a + j) = image[j] := by
  rw [Memory.read_writeBytes, dif_pos (by omega)]
  simp only [Nat.add_sub_cancel_left]

theorem Memory.read_writeBytes_outside (m : Memory) {a c : Nat} (hc : c < a ∨ a + image.length ≤ c) :
    Memory.read (Memory.writeBytes m a image) c = Memory.read m c := by
  rw [Memory.read_writeBytes, dif_neg (by omega)]

/-- Settles O59: 3584 is the number of bytes from 0x200 on. -/
theorem loadPlacesImageOrRefuses : Obligations.LoadPlacesImageOrRefuses := by
  intro image s
  refine ⟨fun h => loadImage_of_gt h s, fun h => ?_⟩
  have hfits : 0x200 + image.length ≤ Config.memSize := by simp only [Config.memSize]; omega
  exact ⟨_, loadImage_of_le h s, fun _ hj => Memory.read_writeBytes_image s.mem 0x200 hj,
    fun _ ha => Memory.read_writeBytes_outside s.mem ha, rfl, fun hwf => Memory.wf_writeBytes hwf 0x200 image hfits⟩

end Sys2Proof.Machine
end

section
/-! Dxyn (43_display.md R151 to R154): the draw when its sprite bytes exist, the fault when one does not, and the same sprite
drawn twice. -/

namespace Sys2Proof.Machine

variable {s t : State} (x y : Reg) {n : Nibble}

/-- The sprite bytes as memory holds them, whether or not their addresses exist. -/
def State.spriteRows (s : State) (n : Nibble) : List Byte :=
  (List.range n.toNat).map fun r => Memory.read s.mem (s.i.toNat + r)

theorem State.spriteBytes_of_exist (h : n.toNat = 0 ∨ s.i.toNat + n.toNat ≤ 4096) :
    State.spriteBytes s n = some (State.spriteRows s n) := by
  rw [State.spriteBytes_spec, if_neg (by omega)]
  rfl

theorem State.spriteBytes_of_gt (h0 : 0 < n.toNat) (h : 4096 < s.i.toNat + n.toNat) :
    State.spriteBytes s n = none := by
  rw [State.spriteBytes_spec, if_pos ⟨h0, h⟩]

theorem exec_drw_of_exist (h : n.toNat = 0 ∨ s.i.toNat + n.toNat ≤ 4096) :
    exec (.drw x y n) s =
      .next (State.drawSprite s (State.getV s x).toNat (State.getV s y).toNat (State.spriteRows s n)) := by
  simp only [exec, execDrw, State.spriteBytes_of_exist h]

theorem exec_drw_of_gt (h0 : 0 < n.toNat) (h : 4096 < s.i.toNat + n.toNat) :
    exec (.drw x y n) s = .next (State.raise s (.outOfBounds (max s.i.toNat 4096))) := by
  simp only [exec, execDrw, State.spriteBytes_of_gt h0 h]
  rfl

/-- Settles O49. -/
theorem drawOutOfRangeDrawsNothing : Obligations.DrawOutOfRangeDrawsNothing := fun x y _ s h0 h =>
  ⟨_, exec_drw_of_gt x y h0 h, onlyHalts_raise s _⟩

/-- A pixel that is 1 is on the display. -/
theorem Display.lt_of_pixel {d : Display} {px py : Nat} (h : Display.pixel d px py = true) : px < 64 ∧ py < 32 := by
  by_contra hoff
  rw [Display.pixel_off d hoff] at h
  cases h

/-- A pixel XORed with a bit goes from 1 to 0 exactly if both are 1. -/
theorem pixel_cleared_iff {before after bit : Bool} (h : after = (before ^^ bit)) :
    before = true ∧ after = false ↔ bit = true ∧ before = true := by
  subst h
  cases before <;> cases bit <;> decide

/-- R151's collision, told by the sprite's set bits, is a pixel that the draw clears. -/
theorem collision_iff_pixel_cleared {bit : Nat → Nat → Bool} {d e : Display}
    (h : ∀ px py, px < 64 → py < 32 → Display.pixel e px py = (Display.pixel d px py ^^ bit px py)) :
    (∃ px py, bit px py = true ∧ Display.pixel d px py = true) ↔
      ∃ px py, px < 64 ∧ py < 32 ∧ Display.pixel d px py = true ∧ Display.pixel e px py = false := by
  refine exists₂_congr fun px py => ⟨fun hhit => ?_, fun ⟨hx, hy, hclear⟩ => ?_⟩
  · obtain ⟨hx, hy⟩ := Display.lt_of_pixel hhit.2
    exact ⟨hx, hy, (pixel_cleared_iff (h px py hx hy)).mpr hhit⟩
  · exact (pixel_cleared_iff (h px py hx hy)).mp hclear

/-- Settles O48: the draw XORs the sprite, and its collision flag says that a pixel was cleared. -/
theorem drawXorsSpriteAndReportsCollision : Obligations.DrawXorsSpriteAndReportsCollision := by
  intro x y n s h
  obtain ⟨hpixel, hone, hzero⟩ := State.drawSprite_spec s (State.getV s x).toNat (State.getV s y).toNat n.toNat _ rfl
  obtain ⟨hregs, hdirty, hframe⟩ :=
    State.drawSprite_frame s (State.getV s x).toNat (State.getV s y).toNat (State.spriteRows s n)
  have hcleared := collision_iff_pixel_cleared hpixel
  exact ⟨_, exec_drw_of_exist x y h, hpixel, hone.trans hcleared, hzero.trans (not_congr hcleared), hdirty, hframe,
    fun r hr => hregs r fun e => hr (List.mem_singleton.mpr e), fun _ => rfl⟩

/-- The sprite is told by `I` and memory alone. -/
theorem State.spriteBit_congr (hi : t.i = s.i) (hm : t.mem = s.mem) (vx vy k px py : Nat) :
    State.spriteBit t vx vy k px py = State.spriteBit s vx vy k px py := by
  rw [State.spriteBit, State.spriteBit, hi, hm]

/-- XORing the same bits onto a display twice gives it back. -/
theorem Display.eq_of_xor_twice {bit : Nat → Nat → Bool} {d e f : Display}
    (he : ∀ px py, px < 64 → py < 32 → Display.pixel e px py = (Display.pixel d px py ^^ bit px py))
    (hf : ∀ px py, px < 64 → py < 32 → Display.pixel f px py = (Display.pixel e px py ^^ bit px py)) : f = d := by
  refine Display.ext_pixel fun px py hx hy => ?_
  rw [hf px py hx hy, he px py hx hy, Bool.xor_assoc, Bool.xor_self, Bool.xor_false]

/-- A pixel that is 1 after a XOR and was 0 before it has been set by the XOR. -/
theorem pixel_set_iff {before after bit : Bool} (h : after = (before ^^ bit)) :
    after = true ∧ before = false ↔ before = false ∧ bit = true := by
  subst h
  cases before <;> cases bit <;> decide

/-- Settles O50, by O48 for both draws: they XOR the same sprite, so the second undoes the first, and the pixels it clears are
those that the first has set. -/
theorem drawTwiceRestoresDisplay : Obligations.DrawTwiceRestoresDisplay := by
  intro x y n s h
  obtain ⟨t, ht, hfirst, -, -, -, hframe, -, -⟩ := drawXorsSpriteAndReportsCollision x y n s h
  have hi : t.i = s.i := by rw [hframe]
  have hm : t.mem = s.mem := by rw [hframe]
  obtain ⟨u, hu, hsecond, hone, hzero, -⟩ :=
    drawXorsSpriteAndReportsCollision x y n { t with v := s.v } (hi ▸ h)
  have hback : u.disp = s.disp := Display.eq_of_xor_twice hfirst fun px py hx hy =>
    (hsecond px py hx hy).trans (congrArg (Display.pixel t.disp px py ^^ ·) (State.spriteBit_congr hi hm ..))
  rw [hback] at hone hzero
  have hcleared (px py : Nat) :
      (px < 64 ∧ py < 32 ∧ Display.pixel t.disp px py = true ∧ Display.pixel s.disp px py = false) ↔
        px < 64 ∧ py < 32 ∧ Display.pixel s.disp px py = false ∧
          State.spriteBit s (State.getV s x).toNat (State.getV s y).toNat n.toNat px py = true :=
    and_congr_right fun hx => and_congr_right fun hy => pixel_set_iff (hfirst px py hx hy)
  exact ⟨t, u, ht, hu, hback, hone.trans (exists₂_congr hcleared), hzero.trans (not_congr (exists₂_congr hcleared))⟩

end Sys2Proof.Machine
end
